-- ==== Sys2Proof/Word.lean ====
section
/-!
DEFINITION. The words of the block (spec/00_scope.md R7): a byte, a nibble (half a byte), and the 16-bit command word
CMD16. They are plain bit vectors, bit 0 the least significant.
-/

namespace Sys2Proof

/-- R7: "A byte is 8 bits. Bit 7 of a byte is its most significant bit and bit 0 its least significant." -/
abbrev Byte := BitVec 8

/-- The sub-byte unit of the 4-bit mode (R31, R34): one real or one imaginary component as it is stored. -/
abbrev Nibble := BitVec 4

/-- R62: a command word, format CMD16. -/
abbrev CmdWord := BitVec 16

end Sys2Proof
end

