-- ==== Sys2Proof/Syntax.lean ====
section
/-!
DEFINITION. The fifteen commands (spec/30_encoding.md R63), one constructor per row of spec/opcode_table.json, each with
the fields its command word carries (R62) and no others. What a command takes from the operand ports (FIN, SIN, BIN, NIN;
R64) stands in the state, not here.
-/

namespace Sys2Proof

/-- The payload mode (R16, R57): the `w8` bit of a command word and the `MODE` bit of the context.
No other bit width can be written down. -/
inductive Mode where
  /-- `w8 = 0`: `bitWidth = 4`, one complex sample a byte -/
  | bits4
  /-- `w8 = 1`: `bitWidth = 8`, the legacy mode, one unsigned component a byte -/
  | bits8
  deriving DecidableEq, Repr

/-- The command set (R63). `w8` is bit 11, `s` bit 10, `fm` bits 9 to 4 (bit `i` of `fm`: field operand `i` is
supplied), `cfg` bits 1 to 0 of the word (R62). -/
inductive Instr where
  /-- op 0x0, R75 -/
  | hdrEncode
  /-- op 0x1, R76 -/
  | hdrDecode
  /-- op 0x2, R85 -/
  | packNibbles
  /-- op 0x3, R86 -/
  | unpackNibbles
  /-- op 0x4, R87 -/
  | packBytes
  /-- op 0x5, R88 -/
  | unpackBytes
  /-- op 0x6, R100 -/
  | fromFields (w8 : Mode) (fm : BitVec 6)
  /-- op 0x7, R101 -/
  | fromBytes (w8 : Mode)
  /-- op 0x8, R102 -/
  | toBytes
  /-- op 0x9, R103; `smp` is the word's bit `s`: new samples are supplied -/
  | update (smp : Bool) (fm : BitVec 6)
  /-- op 0xA, R104 -/
  | decodedSamples
  /-- op 0xB, R105 -/
  | readFields
  /-- op 0xC, R130 -/
  | cfgWrite (cfg : BitVec 2)
  /-- op 0xD, R131 -/
  | cfgRead
  /-- op 0xE, R132 -/
  | reset
  deriving DecidableEq, Repr

end Sys2Proof
end

