-- ==== Sys2Proof/WellFormed.lean ====
section
/-!
DEFINITION. Which command words are well formed (spec/30_encoding.md R62 and R65), said from the field rules of R62 alone
and not from the table of R63: which opcodes own which field, every other field zero. `Instr` itself needs no check: its
fields have the types of the word's fields, so an ill-formed instruction cannot be written (log entry 7).
-/

namespace Sys2Proof

/-- Why a command word is illegal (R62's "must be 0" clauses and R65's reserved opcode). -/
inductive IllFormed where
  /-- `op = 0xF` "with any other bits" -/
  | reservedOp
  /-- bit 11 set by a command that has no `w8` -/
  | w8Bit
  /-- bit 10 set by a command that has no `s` -/
  | sBit
  /-- a bit of 9 to 4 set by a command that has no `fm` -/
  | fmBits
  /-- a bit of 3 to 2 set: they "must be 0" in every command -/
  | reservedBits
  /-- a bit of 1 to 0 set by a command that has no `cfg` -/
  | cfgBits
  deriving DecidableEq, Repr

/-- R62 `w8`: "Used by `FROM_FIELDS` and `FROM_BYTES`; must be 0 in every other command". -/
def opUsesW8 (op : BitVec 4) : Bool := op == 0x6 || op == 0x7

/-- R62 `s`: "Used by `UPDATE`; must be 0 in every other command". -/
def opUsesS (op : BitVec 4) : Bool := op == 0x9

/-- R62 `fm`: "Used by `FROM_FIELDS` and `UPDATE`; must be 0 in every other command". -/
def opUsesFm (op : BitVec 4) : Bool := op == 0x6 || op == 0x9

/-- R62 `cfg`: "Used by `CFG_WRITE`; must be 0 in every other command". -/
def opUsesCfg (op : BitVec 4) : Bool := op == 0xC

/-- The first rule of R62 and R65 a word breaks, if it breaks one. -/
def checkWord (w : CmdWord) : Option IllFormed :=
  let op := w.extractLsb' 12 4
  if op = 0xF then some .reservedOp
  else if opUsesW8 op = false ∧ w.extractLsb' 11 1 ≠ 0 then some .w8Bit
  else if opUsesS op = false ∧ w.extractLsb' 10 1 ≠ 0 then some .sBit
  else if opUsesFm op = false ∧ w.extractLsb' 4 6 ≠ 0 then some .fmBits
  else if w.extractLsb' 2 2 ≠ 0 then some .reservedBits
  else if opUsesCfg op = false ∧ w.extractLsb' 0 2 ≠ 0 then some .cfgBits
  else none

/-- A legal command word: it breaks no rule of R62 and R65. -/
def wellFormedWord (w : CmdWord) : Bool := checkWord w == none

end Sys2Proof
end

