-- ==== Sys2Proof/Decode.lean ====
section
/-!
DEFINITION. The decoder of command words, written from the match and mask columns of R63 (spec/30_encoding.md), and after
it the encoder, written from the field positions of R62. A word that selects no row is rejected by name (R65). CMD16 is
one 16-bit word on a port, with no byte order of its own (log entry 8).
-/

namespace Sys2Proof

/-- What the decoder answers for a word that is no command (R65, R142). -/
inductive DecodeError where
  /-- the word "matches no row of rule R63" -/
  | illegalCommand (word : CmdWord)
  deriving DecidableEq, Repr

/-- The `w8` bit as a mode (R57): "`w8 = 0` is `bitWidth = 4`, `w8 = 1` is `bitWidth = 8`". -/
def modeOfBit (b : Bool) : Mode := if b then .bits8 else .bits4

/-- The mode as a `w8` bit (R57). -/
def bitOfMode : Mode → BitVec 1
  | .bits4 => 0#1
  | .bits8 => 1#1

/-- The `w8` field of a word, bit 11 (R62). -/
def fieldW8 (w : CmdWord) : Mode := modeOfBit (w.getLsbD 11)

/-- The `s` field of a word, bit 10 (R62). -/
def fieldS (w : CmdWord) : Bool := w.getLsbD 10

/-- The `fm` field of a word, bits 9 to 4 (R62). -/
def fieldFm (w : CmdWord) : BitVec 6 := w.extractLsb' 4 6

/-- The `cfg` field of a word, bits 1 to 0 (R62). -/
def fieldCfg (w : CmdWord) : BitVec 2 := w.extractLsb' 0 2

/-- One row of the command table of R63: its mnemonic, its `match` and `mask`, and the command a selected word is. -/
structure CmdRow where
  mnemonic : String
  pattern : CmdWord
  mask : CmdWord
  build : CmdWord → Instr

/-- R63: "a word `c` selects the row when `c & mask = match`". -/
def rowSelects (r : CmdRow) (w : CmdWord) : Bool := w &&& r.mask == r.pattern

/-- The fifteen rows of R63, in its order. -/
def cmdTable : List CmdRow :=
  [ ⟨"HDR_ENCODE", 0x0000, 0xFFFF, fun _ => .hdrEncode⟩,
    ⟨"HDR_DECODE", 0x1000, 0xFFFF, fun _ => .hdrDecode⟩,
    ⟨"PACK_NIBBLES", 0x2000, 0xFFFF, fun _ => .packNibbles⟩,
    ⟨"UNPACK_NIBBLES", 0x3000, 0xFFFF, fun _ => .unpackNibbles⟩,
    ⟨"PACK_BYTES", 0x4000, 0xFFFF, fun _ => .packBytes⟩,
    ⟨"UNPACK_BYTES", 0x5000, 0xFFFF, fun _ => .unpackBytes⟩,
    ⟨"FROM_FIELDS", 0x6000, 0xF40F, fun w => .fromFields (fieldW8 w) (fieldFm w)⟩,
    ⟨"FROM_BYTES", 0x7000, 0xF7FF, fun w => .fromBytes (fieldW8 w)⟩,
    ⟨"TO_BYTES", 0x8000, 0xFFFF, fun _ => .toBytes⟩,
    ⟨"UPDATE", 0x9000, 0xF80F, fun w => .update (fieldS w) (fieldFm w)⟩,
    ⟨"DECODED_SAMPLES", 0xA000, 0xFFFF, fun _ => .decodedSamples⟩,
    ⟨"READ_FIELDS", 0xB000, 0xFFFF, fun _ => .readFields⟩,
    ⟨"CFG_WRITE", 0xC000, 0xFFFC, fun w => .cfgWrite (fieldCfg w)⟩,
    ⟨"CFG_READ", 0xD000, 0xFFFF, fun _ => .cfgRead⟩,
    ⟨"RESET", 0xE000, 0xFFFF, fun _ => .reset⟩ ]

/-- The command a word is, or its rejection by name (R63, R65). Total on all 65,536 words. -/
def decode (w : CmdWord) : Except DecodeError Instr :=
  match cmdTable.find? (fun r => rowSelects r w) with
  | some r => .ok (r.build w)
  | none => .error (.illegalCommand w)

/-- R62: a word from its fields, `op[15:12] w8[11] s[10] fm[9:4] 00[3:2] cfg[1:0]`. -/
def cmd16 (op : BitVec 4) (w8 : BitVec 1) (s : BitVec 1) (fm : BitVec 6) (cfg : BitVec 2) : CmdWord :=
  op ++ w8 ++ s ++ fm ++ 0#2 ++ cfg

/-- The word of a command: its opcode of R63 with the fields it owns, every other field zero (R62). -/
def encode : Instr → CmdWord
  | .hdrEncode => cmd16 0x0 0 0 0 0
  | .hdrDecode => cmd16 0x1 0 0 0 0
  | .packNibbles => cmd16 0x2 0 0 0 0
  | .unpackNibbles => cmd16 0x3 0 0 0 0
  | .packBytes => cmd16 0x4 0 0 0 0
  | .unpackBytes => cmd16 0x5 0 0 0 0
  | .fromFields w8 fm => cmd16 0x6 (bitOfMode w8) 0 fm 0
  | .fromBytes w8 => cmd16 0x7 (bitOfMode w8) 0 0 0
  | .toBytes => cmd16 0x8 0 0 0 0
  | .update smp fm => cmd16 0x9 0 (BitVec.ofBool smp) fm 0
  | .decodedSamples => cmd16 0xA 0 0 0 0
  | .readFields => cmd16 0xB 0 0 0 0
  | .cfgWrite cfg => cmd16 0xC 0 0 0 cfg
  | .cfgRead => cmd16 0xD 0 0 0 0
  | .reset => cmd16 0xE 0 0 0 0

/-- Every legal word, command by command in the order of R63 (R65 counts them: 273). -/
def legalWords : List CmdWord :=
  let fms := (List.range 64).map (BitVec.ofNat 6)
  [.hdrEncode, .hdrDecode, .packNibbles, .unpackNibbles, .packBytes, .unpackBytes].map encode
    ++ (fms.map fun fm => encode (.fromFields .bits4 fm))
    ++ (fms.map fun fm => encode (.fromFields .bits8 fm))
    ++ [.fromBytes .bits4, .fromBytes .bits8, .toBytes].map encode
    ++ (fms.map fun fm => encode (.update false fm))
    ++ (fms.map fun fm => encode (.update true fm))
    ++ [.decodedSamples, .readFields, .cfgWrite 0, .cfgWrite 1, .cfgWrite 2, .cfgWrite 3, .cfgRead, .reset].map encode

/-- The command a table word of `nbits` bits is, its bits above `nbits` zero; none where the decoder rejects it. -/
def decodeTableWord (nbits w : Nat) : Option Instr :=
  match decode (BitVec.ofNat 16 (w % 2 ^ nbits)) with
  | .ok i => some i
  | .error _ => none

end Sys2Proof
end

