-- ==== Sys2Proof/Config.lean ====
section
/-!
DEFINITION. The constants of the format (spec/00_scope.md R3, none of them configurable) and the default of the one
open parameter, PAYLOAD_CAP (R4). The parameter itself is the field `cap` of the state (log entry 4), so that every
statement over all states is a statement over all its values. The block has no free values: "Nothing in the block is
non-deterministic" (R6).
-/

namespace Sys2Proof.Config

/-- R3 `HEADER_BYTES`: size of the header on the wire. -/
def headerBytes : Nat := 16

/-- R3 `N_FIELDS`: logical header fields. -/
def nFields : Nat := 6

/-- R3 `TIME_SAMPLES`: time samples per channel per packet. -/
def timeSamples : Nat := 16

/-- R3 `POLS`: polarisations per time sample. -/
def pols : Nat := 2

/-- R3 `BYTES_PER_CHANNEL`: payload bytes per channel, `TIME_SAMPLES * POLS`. -/
def bytesPerChannel : Nat := timeSamples * pols

/-- R3 `NIBBLE_BITS`: bits per component in the default mode. -/
def nibbleBits : Nat := 4

/-- R4, D1: the default of `PAYLOAD_CAP`, `EXP(65535)`, "at which no operation is ever limited by capacity". -/
def payloadCapDefault : Nat := 2097120

end Sys2Proof.Config
end

