-- ==== Sys2Proof/Machine/State.lean ====
section
/-!
DEFINITION. The state of the block (spec/10_state.md R10) as plain data, and its value after reset (R24). The block's own
state is the context `ctx` (CON, HDR, PAY, MODE) and `cfg`. Beside it stand the parameter `cap` (R4) and the model's own
interface fields: the host's command stream, the operand ports and the result ports (log entries 2 to 5).
-/

namespace Sys2Proof.Machine

/-- The six header field registers `HDR[0..5]` with their widths (R11). -/
structure Header where
  /-- `HDR[0]`, `firmwareVersion` -/
  fw : BitVec 8
  /-- `HDR[1]`, `packetTypeFlags` -/
  flags : BitVec 8
  /-- `HDR[2]`, `numChannels`: the one field the block computes with (R9) -/
  nchan : BitVec 16
  /-- `HDR[3]`, `startChannel` -/
  schan : BitVec 16
  /-- `HDR[4]`, `antennaId` -/
  ant : BitVec 16
  /-- `HDR[5]`, `sampleNumber` -/
  snum : BitVec 64
  deriving DecidableEq, Repr

/-- The payload store (R17): "a sequence of bytes holding the payload exactly as it stands on the wire", index 0 first. -/
abbrev Memory := List Byte

/-- The packet context while `CON = 1` (R10, R23): header, payload and mode. -/
structure Packet where
  hdr : Header
  /-- `PAY` -/
  pay : Memory
  /-- `MODE` -/
  mode : Mode
  deriving DecidableEq, Repr

/-- Six field operands, mathematical integers of any size and sign (R8, R64 `FIN[0..5]`). -/
structure FieldValues where
  fw : Int
  flags : Int
  nchan : Int
  schan : Int
  ant : Int
  snum : Int
  deriving DecidableEq, Repr

/-- The operand ports of R64. A command reads the ports its row names; "A port a command does not name is ignored". -/
structure Ports where
  /-- `FIN[0..5]` of `FROM_FIELDS` and `UPDATE` -/
  fin : FieldValues
  /-- `FIN[0..5]` of `HDR_ENCODE`: "a header, not six free integers" (R75, D18; log entry 6) -/
  hin : Header
  /-- `SIN`, an integer sequence -/
  sin : List Int
  /-- `BIN`, a byte sequence -/
  bin : List Byte
  /-- `NIN`, an expected count -/
  nin : Nat
  deriving DecidableEq, Repr

/-- One command as the host issues it (R180): "one CMD16 word and the operands". -/
structure Request where
  word : CmdWord
  ports : Ports
  deriving DecidableEq, Repr

/-- The statuses of R141. -/
inductive Status where
  | ok
  | incompleteHeader
  | payloadLengthMismatch
  | truncatedPacket
  | fieldOutOfRange
  | excessLength
  | notConstructed
  | illegalCommand
  deriving DecidableEq, Repr

/-- An error with its information record `INFO` (R142). The record's member `have` is `avail` here. -/
inductive Error where
  | incompleteHeader (missing : BitVec 6)
  | payloadLengthMismatch (expectedBytes expectedComponents actualComponents : Nat)
  | truncatedPacket (need avail : Nat)
  | fieldOutOfRange (field : Fin 6) (value : Int)
  | excessLength (need avail : Nat)
  | notConstructed
  | illegalCommand (word : CmdWord)
  deriving DecidableEq, Repr

/-- A sample sequence on `SOUT` (R21): pairs in the 4-bit mode, single integers in the 8-bit mode. -/
inductive Samples where
  | pairs (xs : List (Int × Int))
  | flat (xs : List Int)
  deriving DecidableEq, Repr

/-- What a command that ends `OK` puts out (R64): nothing, or one of the result ports. -/
inductive Output where
  | none
  | bout (bytes : List Byte)
  | sout (samples : Samples)
  | fout (fields : Header)
  | cout (cfg : BitVec 2)
  deriving DecidableEq, Repr

/-- How a command ends (R140): "either with status `OK` and its outputs, or with one error status and an information
record". With an error the other result ports carry nothing (R64). -/
inductive Result where
  | ok (out : Output)
  | error (e : Error)
  deriving DecidableEq, Repr

/-- The reasons the machine stops. There are none: every command ends with a result and "the block is ready for the next
command at once" (R140, R148); an error of R141 is a result, not a stop. -/
inductive Fault where
  deriving DecidableEq, Repr

/-- The reasons a step has no meaning. -/
inductive Refusal where
  /-- Raised by an arm of `exec` that has no meaning yet; no arm is in that state. Safe: the machine does not go on. -/
  | notModelled (mnemonic : String)
  /-- Raised by `FROM_FIELDS`, `FROM_BYTES` and `UPDATE` about to write a payload of `need` bytes, more than
  `PAYLOAD_CAP = cap` (R4, R114): "this spec gives it no result and no next state". Safe: the machine does not go on. -/
  | payloadCapacity (need cap : Nat)
  deriving DecidableEq, Repr

/-- The state. `ctx` is the packet context: `none` is `CON = 0`, `some` is `CON = 1` with HDR, PAY and MODE (R23 asks
for this option). -/
structure State where
  /-- R10, R15, R23: CON, and while it is 1 HDR, PAY and MODE -/
  ctx : Option Packet
  /-- R19: CFG, bit 0 `SF` (strict fields), bit 1 `SL` (strict length) -/
  cfg : BitVec 2
  /-- R4: the parameter PAYLOAD_CAP in bytes; no command writes it (log entry 4) -/
  cap : Nat
  /-- R64: the operand ports, with the operands of the command last issued (the model's own; log entry 3) -/
  ports : Ports
  /-- R41, R181: the commands the host has chosen and not yet issued, next first (the model's own; log entry 2) -/
  stream : List Request
  /-- R64, R140: the result ports, with the result of the command that ended last (the model's own; log entry 5) -/
  result : Option Result
  deriving DecidableEq, Repr

/-- Ports on which nothing has been presented (log entry 3). -/
def Ports.idle : Ports :=
  { fin := { fw := 0, flags := 0, nchan := 0, schan := 0, ant := 0, snum := 0 },
    hin := { fw := 0, flags := 0, nchan := 0, schan := 0, ant := 0, snum := 0 },
    sin := [], bin := [], nin := 0 }

/-- R24: after reset `CON = 0` and `CFG = 0`; HDR, PAY and MODE hold no value. The parameter has its default (R4); no
command has been issued and none has ended. -/
def State.reset : State :=
  { ctx := none, cfg := 0, cap := Config.payloadCapDefault, ports := Ports.idle, stream := [], result := none }

end Sys2Proof.Machine
end

