-- ==== Sys2Proof/Machine/Operands.lean ====
section
/-!
DEFINITION. The operand forms (spec/30_encoding.md R54 to R58, spec/00_scope.md R8, spec/20_memory.md R33, R36 to R38):
reducing an integer operand to a register, the strict range check, field operands supplied by the mask `fm`, the
components of a payload byte, and the index formulas of the payload.
-/

namespace Sys2Proof.Machine

/-- R8 `mask_w(v) = v mod 2^w`, "the non-negative remainder in `[0, 2^w)`", as a `w`-bit register value. -/
def mask (w : Nat) (v : Int) : BitVec w := BitVec.ofInt w v

/-- R11: `W = [8, 8, 16, 16, 16, 64]`, the width of field register `i`. -/
def fieldWidth (i : Fin 6) : Nat :=
  match i with
  | 0 => 8
  | 1 => 8
  | 2 => 16
  | 3 => 16
  | 4 => 16
  | 5 => 64

/-- R32, R54: `o = [0, 1, 2, 4, 6, 8]`, the wire offset of field `i`. -/
def fieldOffset (i : Fin 6) : Nat :=
  match i with
  | 0 => 0
  | 1 => 1
  | 2 => 2
  | 3 => 4
  | 4 => 6
  | 5 => 8

/-- R54: `n = [1, 1, 2, 2, 2, 8]`, the wire bytes of field `i`, `W[i] / 8`. -/
def fieldBytes (i : Fin 6) : Nat := fieldWidth i / 8

/-- `FIN[i]` (R64). -/
def FieldValues.get (v : FieldValues) (i : Fin 6) : Int :=
  match i with
  | 0 => v.fw
  | 1 => v.flags
  | 2 => v.nchan
  | 3 => v.schan
  | 4 => v.ant
  | 5 => v.snum

/-- `HDR[i]` as the unsigned number it holds (R11: "unsigned"). -/
def Header.get (h : Header) (i : Fin 6) : Nat :=
  match i with
  | 0 => h.fw.toNat
  | 1 => h.flags.toNat
  | 2 => h.nchan.toNat
  | 3 => h.schan.toNat
  | 4 => h.ant.toNat
  | 5 => h.snum.toNat

/-- R55, legacy: every supplied value masked to its register's width. -/
def FieldValues.masked (v : FieldValues) : Header :=
  { fw := mask 8 v.fw, flags := mask 8 v.flags, nchan := mask 16 v.nchan,
    schan := mask 16 v.schan, ant := mask 16 v.ant, snum := mask 64 v.snum }

/-- R55, strict: whether a supplied value is within a width, `0 <= v < 2^w`. -/
def inWidth (w : Nat) (v : Int) : Bool := decide (0 ≤ v ∧ v < 2 ^ w)

/-- R62: whether field operand `FIN[i]` is supplied, bit `i` of `fm`. -/
def supplied (fm : BitVec 6) (i : Fin 6) : Bool := fm.getLsbD i

/-- R100: the mask of a complete header. -/
abbrev allFields : BitVec 6 := 0b111111

/-- R100, R103, R144: the lowest supplied field whose value does not fit its register. -/
def firstOutOfRange (fm : BitVec 6) (v : FieldValues) : Option (Fin 6) :=
  [0, 1, 2, 3, 4, 5].find? fun i => supplied fm i && !inWidth (fieldWidth i) (v.get i)

/-- R103: the header `h` with every supplied field replaced by its masked value; "unsupplied fields keep prior value". -/
def supplyFields (fm : BitVec 6) (v : FieldValues) (h : Header) : Header :=
  { fw := if supplied fm 0 then v.masked.fw else h.fw,
    flags := if supplied fm 1 then v.masked.flags else h.flags,
    nchan := if supplied fm 2 then v.masked.nchan else h.nchan,
    schan := if supplied fm 3 then v.masked.schan else h.schan,
    ant := if supplied fm 4 then v.masked.ant else h.ant,
    snum := if supplied fm 5 then v.masked.snum else h.snum }

/-- R55 over the supplied fields, ascending: with `CFG.SF = 1` the lowest value outside its width is an error, otherwise
every supplied value is stored, masked. -/
def reduceFields (strict : Bool) (fm : BitVec 6) (v : FieldValues) (h : Header) : Except Error Header :=
  if strict then
    match firstOutOfRange fm v with
    | some i => .error (.fieldOutOfRange i (v.get i))
    | none => .ok (supplyFields fm v h)
  else .ok (supplyFields fm v h)

/-- R3 `EXP(n) = 32 * n`: the payload bytes of `n` channels, in both modes. -/
def expBytes (n : Nat) : Nat := Config.bytesPerChannel * n

/-- The payload bytes a header implies, `EXP(numChannels)`. -/
def Header.expBytes (h : Header) : Nat := Machine.expBytes h.nchan.toNat

/-- R106 `COMPONENTS(m, N)`: the components that pack into `N` bytes. -/
def components (m : Mode) (n : Nat) : Nat :=
  match m with
  | .bits4 => 2 * n
  | .bits8 => n

/-- R106 `ACTUAL(m, P)`: the component count a stored payload stands for. -/
def actualComponents (m : Mode) (pay : Memory) : Nat := components m pay.length

/-- R56 `sext_4(v)`: "`v` if `v < 8`, else `v - 16`". The only sign extension in the block. -/
def sext4 (v : Nibble) : Int := if v.toNat < 8 then v.toNat else v.toNat - 16

/-- R7: the high nibble `b[7:4]`, the real component (R31). -/
def highNibble (b : Byte) : Nibble := b.extractLsb' 4 4

/-- R7: the low nibble `b[3:0]`, the imaginary component (R31). -/
def lowNibble (b : Byte) : Nibble := b.extractLsb' 0 4

/-- R56: `(mask_4(real) << 4) | mask_4(imag)`, format CS8 (R52). -/
def cs8 (re im : Int) : Byte := ((mask 4 re).setWidth 8 <<< 4) ||| (mask 4 im).setWidth 8

/-- R56: the complex sample of a CS8 byte, `(sext_4(byte[7:4]), sext_4(byte[3:0]))`. -/
def cs8Pair (b : Byte) : Int × Int := (sext4 (highNibble b), sext4 (lowNibble b))

/-- R33: the number of the complex sample of channel `c`, time `t`, polarisation `p`, `32*c + 2*t + p`. -/
def sampleIndex (c t p : Nat) : Nat := (c * Config.timeSamples + t) * Config.pols + p

/-- R33: channel, time and polarisation of complex sample `k`, `k div 32`, `(k mod 32) div 2`, `k mod 2`. -/
def sampleCoord (k : Nat) : Nat × Nat × Nat :=
  (k / Config.bytesPerChannel, k % Config.bytesPerChannel / Config.pols, k % Config.pols)

/-- R38: index in `SIN` of the real component of `(c, t, p)`. -/
def realIndex (c t p : Nat) : Nat := 2 * sampleIndex c t p

/-- R38: index in `SIN` of the imaginary component of `(c, t, p)`. -/
def imagIndex (c t p : Nat) : Nat := 2 * sampleIndex c t p + 1

/-- R36: the wire offset of payload byte `k`. -/
def wireOffset (k : Nat) : Nat := Config.headerBytes + k

/-- R12, R50: `firmwareVersion` bit 7, the voltage-packet marker. The block acts on none of the four below (R9). -/
def Header.voltageMarker (h : Header) : Bool := h.fw.getLsbD 7

/-- R12, R50: `firmwareVersion` bits 6 to 0, the firmware revision. -/
def Header.firmwareRevision (h : Header) : BitVec 7 := h.fw.extractLsb' 0 7

/-- R12, R50: `packetTypeFlags` bit 0, the axis order, "only supported value =1". -/
def Header.axisOrder (h : Header) : Bool := h.flags.getLsbD 0

/-- R12, R50: `packetTypeFlags` bit 1, the payload kind, 0 "only supported value". -/
def Header.payloadKind (h : Header) : Bool := h.flags.getLsbD 1

/-- R172: the test a host makes that wants only supported packets. The block never makes it. -/
def Header.supportedByHost (h : Header) : Bool := h.voltageMarker && h.axisOrder && !h.payloadKind

end Sys2Proof.Machine
end

