-- ==== Sys2Proof/Machine/Flags.lean ====
section
/-!
DEFINITION. The flag and the control bits (spec/10_state.md R15, R16, R19) and the status codes and result ports
(spec/60_exceptions.md R141, R142, spec/30_encoding.md R64). The block has "no condition codes, no carry or overflow
flag, no sticky error flag" (R15).
-/

namespace Sys2Proof.Machine

/-- `CON` (R15): a packet is constructed. -/
def State.con (s : State) : Bool := s.ctx.isSome

/-- `CFG.SF` (R19): bit 0, strict fields. -/
def State.sf (s : State) : Bool := s.cfg.getLsbD 0

/-- `CFG.SL` (R19): bit 1, strict length. -/
def State.sl (s : State) : Bool := s.cfg.getLsbD 1

/-- `MODE` as the bit R16 gives it: 0 for the 4-bit mode, 1 for the 8-bit legacy mode. -/
def modeBit : Mode → BitVec 1
  | .bits4 => 0#1
  | .bits8 => 1#1

/-- R141: the codes of the statuses, 3 bits. -/
def Status.code : Status → BitVec 3
  | .ok => 0
  | .incompleteHeader => 1
  | .payloadLengthMismatch => 2
  | .truncatedPacket => 3
  | .fieldOutOfRange => 4
  | .excessLength => 5
  | .notConstructed => 6
  | .illegalCommand => 7

/-- R141: the status an error is reported by. -/
def Error.status : Error → Status
  | .incompleteHeader _ => .incompleteHeader
  | .payloadLengthMismatch _ _ _ => .payloadLengthMismatch
  | .truncatedPacket _ _ => .truncatedPacket
  | .fieldOutOfRange _ _ => .fieldOutOfRange
  | .excessLength _ _ => .excessLength
  | .notConstructed => .notConstructed
  | .illegalCommand _ => .illegalCommand

/-- The port `STATUS` (R64): the status of a result. -/
def Result.status : Result → Status
  | .ok _ => .ok
  | .error e => e.status

/-- The port `INFO` (R142): the information record, carried by errors only. -/
def Result.info : Result → Option Error
  | .ok _ => none
  | .error e => some e

/-- The port `BOUT` (R64). -/
def Result.bout : Result → Option (List Byte)
  | .ok (.bout bytes) => some bytes
  | _ => none

/-- The port `SOUT` (R64). -/
def Result.sout : Result → Option Samples
  | .ok (.sout samples) => some samples
  | _ => none

/-- The port `FOUT[0..5]` (R64). -/
def Result.fout : Result → Option Header
  | .ok (.fout fields) => some fields
  | _ => none

/-- The port `COUT` (R64). -/
def Result.cout : Result → Option (BitVec 2)
  | .ok (.cout cfg) => some cfg
  | _ => none

end Sys2Proof.Machine
end

