-- ==== Sys2Proof/Machine/Ops.lean ====
section
/-!
DEFINITION. The named operations: byte sequences in network byte order (spec/20_memory.md R30), the packers of HP and SS
as functions (R75, R76, R85 to R88, R106), the payload store (R17, R114), ending a command (R140) and ending it with an
error (spec/60_exceptions.md R146, R147). There is no return from an error: "There is nothing to return from" (R148).
-/

namespace Sys2Proof.Machine

/-! Byte sequences -/

/-- `n` bytes of `v`, most significant first: byte `i` is `(v >> 8*(n-1-i)) mod 256` (R30). -/
def beBytes : Nat → Nat → List Byte
  | 0, _ => []
  | n + 1, v => BitVec.ofNat 8 (v >>> (8 * n)) :: beBytes n v

/-- The number a byte sequence stands for, most significant byte first (R54). -/
def beNat (bytes : List Byte) : Nat := bytes.foldl (fun acc b => acc * 256 + b.toNat) 0

/-- `MemRead(S, a, n)`: big-endian unsigned read of `n` bytes at index `a`. The block reads only within `len(S)` (R21). -/
def memRead (bytes : List Byte) (a n : Nat) : Nat := beNat ((bytes.drop a).take n)

/-- `MemWrite(S, a, n, v)`: big-endian write of `n` bytes at index `a`. -/
def memWrite (bytes : List Byte) (a n v : Nat) : List Byte :=
  bytes.take a ++ beBytes n v ++ bytes.drop (a + n)

/-! The header packer as a function (HP) -/

/-- R75: the sixteen header bytes, each field written big-endian at its offset. Every byte is written, so what the
sixteen bytes hold before does not show. -/
def encodeHeader (h : Header) : List Byte :=
  let b0 := memWrite (List.replicate Config.headerBytes 0) 0 1 h.fw.toNat
  let b1 := memWrite b0 1 1 h.flags.toNat
  let b2 := memWrite b1 2 2 h.nchan.toNat
  let b4 := memWrite b2 4 2 h.schan.toNat
  let b6 := memWrite b4 6 2 h.ant.toNat
  memWrite b6 8 8 h.snum.toNat

/-- R76, R54: the header of the first sixteen bytes. -/
def decodeHeader (bytes : List Byte) : Header :=
  { fw := BitVec.ofNat 8 (memRead bytes 0 1),
    flags := BitVec.ofNat 8 (memRead bytes 1 1),
    nchan := BitVec.ofNat 16 (memRead bytes 2 2),
    schan := BitVec.ofNat 16 (memRead bytes 4 2),
    ant := BitVec.ofNat 16 (memRead bytes 6 2),
    snum := BitVec.ofNat 64 (memRead bytes 8 8) }

/-- R76: decoding with its one check, `TruncatedPacket` for fewer than 16 bytes. -/
def hdrDecode (bytes : List Byte) : Except Error Header :=
  if bytes.length < Config.headerBytes then .error (.truncatedPacket Config.headerBytes bytes.length)
  else .ok (decodeHeader bytes)

/-! The sample serializer as functions (SS) -/

/-- R85: components two at a time (real, then imaginary) into bytes. A last single component makes no byte; the callers
check the count first, so it never occurs. -/
def nibbleBytes : List Int → List Byte
  | re :: im :: rest => cs8 re im :: nibbleBytes rest
  | _ => []

/-- R85: `PACK_NIBBLES` of `samples` against `n` expected complex samples. -/
def packNibbles (samples : List Int) (n : Nat) : Except Error (List Byte) :=
  if samples.length = 2 * n then .ok (nibbleBytes samples)
  else .error (.payloadLengthMismatch n (2 * n) samples.length)

/-- R87: `PACK_BYTES` of `samples` against `n` expected components. -/
def packBytes (samples : List Int) (n : Nat) : Except Error (List Byte) :=
  if samples.length = n then .ok (samples.map (mask 8))
  else .error (.payloadLengthMismatch n n samples.length)

/-- R86: the pairs of a byte sequence, in the order of the bytes. -/
def unpackNibbles (bytes : List Byte) : List (Int × Int) := bytes.map cs8Pair

/-- R88: the components of a byte sequence, "unsigned, no sign extension". -/
def unpackBytes (bytes : List Byte) : List Int := bytes.map fun b => (b.toNat : Int)

/-- R106 `PACK(m, S, N)`. -/
def pack (m : Mode) (samples : List Int) (n : Nat) : Except Error (List Byte) :=
  match m with
  | .bits4 => packNibbles samples n
  | .bits8 => packBytes samples n

/-- R104: the samples of a payload in its mode. -/
def unpack (m : Mode) (pay : Memory) : Samples :=
  match m with
  | .bits4 => .pairs (unpackNibbles pay)
  | .bits8 => .flat (unpackBytes pay)

/-! The payload store -/

/-- `PAY[k]` (R17): the payload byte at index `k`, none past the end. -/
def Memory.byte (pay : Memory) (k : Nat) : Option Byte := pay[k]?

/-- R18: the store has the one length its header implies. A sequence of bytes has no second form for the same contents. -/
def Memory.wf (h : Header) (pay : Memory) : Bool := decide (pay.length = h.expBytes)

/-- `PAY[k]` of the context, none where there is no packet or no such byte (R17, R23). -/
def State.payByte (s : State) (k : Nat) : Option Byte := s.ctx.bind fun p => p.pay.byte k

/-! The fields of the state, one setter each -/

/-- Write the packet context. -/
def State.setCtx (s : State) (c : Option Packet) : State := { s with ctx := c }

/-- Write `CFG`. -/
def State.setCfg (s : State) (c : BitVec 2) : State := { s with cfg := c }

/-- Present operands on the operand ports. -/
def State.setPorts (s : State) (p : Ports) : State := { s with ports := p }

/-- Write what is left of the host's command stream. -/
def State.setStream (s : State) (rs : List Request) : State := { s with stream := rs }

/-- Present a result on the result ports. -/
def State.setResult (s : State) (r : Result) : State := { s with result := some r }

/-! Ending a command -/

/-- What a meaning answers. -/
abbrev Answer := Host.Outcome State Fault Refusal

/-- R140: the command ends with status `OK` and its outputs. -/
def complete (out : Output) (s : State) : Answer := .next (s.setResult (.ok out))

/-- R146: the command ends with an error. Nothing is written: "Nothing is saved, no mode changes, no stack exists, control
goes nowhere"; status and record stand on the result ports. -/
def raise (e : Error) (s : State) : Answer := .next (s.setResult (.error e))

/-- R147: a failed construction leaves no packet, `CON <- 0`, "whatever `CON` was before". -/
def raiseConstruction (e : Error) (s : State) : Answer := raise e (s.setCtx none)

/-- End a command that changes no state: its outputs or its error. -/
def finish (r : Except Error Output) (s : State) : Answer :=
  match r with
  | .ok out => complete out s
  | .error e => raise e s

/-- R15, R102 to R105: a command that needs a packet ends with `NotConstructed` where there is none. -/
def withPacket (s : State) (f : Packet → Answer) : Answer :=
  match s.ctx with
  | none => raise .notConstructed s
  | some p => f p

/-- R114: write a packet whose payload is written anew; refused when the payload is longer than `PAYLOAD_CAP`. -/
def storePacket (p : Packet) (s : State) : Answer :=
  if p.pay.length ≤ s.cap then complete .none (s.setCtx (some p))
  else .refused (.payloadCapacity p.pay.length s.cap)

/-- R100, R101, R147: end a construction, with the packet or with no packet. -/
def construct (r : Except Error Packet) (s : State) : Answer :=
  match r with
  | .ok p => storePacket p s
  | .error e => raiseConstruction e s

/-- R41, R180: issue the next command of the host's stream: its word, and the state with its operands on the ports. -/
def issueNext (s : State) : Option (CmdWord × State) :=
  match s.stream with
  | [] => none
  | r :: rest => some (r.word, (s.setPorts r.ports).setStream rest)

/-- R65: a word that is no command "ends with status `IllegalCommand`, changes no state and returns nothing else". -/
def raiseIllegal (e : DecodeError) (s : State) : Answer :=
  match e with
  | .illegalCommand w => raise (.illegalCommand w) s

end Sys2Proof.Machine
end

