-- ==== Sys2Proof/Machine/Control.lean ====
section
/-!
DEFINITION. The control commands (spec/43_control_ops.md): `CFG_WRITE`, `CFG_READ`, `RESET`.
-/

namespace Sys2Proof.Machine

/-- R130 `CFG_WRITE`: both strictness options; the packet is untouched. -/
def execCfgWrite (cfg : BitVec 2) (s : State) : Answer := complete .none (s.setCfg cfg)

/-- R131 `CFG_READ`: both strictness options on `COUT`. -/
def execCfgRead (s : State) : Answer := complete (.cout s.cfg) s

/-- R132 `RESET`: `CON <- 0; CFG.SF <- 0; CFG.SL <- 0`, and no value in HDR, PAY and MODE. The parameter, the host's
stream and the operands on the ports are not the block's state and stay. -/
def execReset (s : State) : Answer := complete .none ((s.setCtx none).setCfg 0)

end Sys2Proof.Machine
end

