-- ==== Sys2Proof/Machine/HeaderPacker.lean ====
section
/-!
DEFINITION. The header packer unit HP (spec/40_header_packer.md): `HDR_ENCODE`, `HDR_DECODE`. Neither reads or writes any
state (R78).
-/

namespace Sys2Proof.Machine

/-- R75 `HDR_ENCODE`: the header operand as sixteen bytes. "Pure, no failure mode". -/
def execHdrEncode (s : State) : Answer := complete (.bout (encodeHeader s.ports.hin)) s

/-- R76 `HDR_DECODE`: the fields of the first sixteen bytes of `BIN`; `TruncatedPacket` when there are fewer. -/
def execHdrDecode (s : State) : Answer := finish ((hdrDecode s.ports.bin).map Output.fout) s

end Sys2Proof.Machine
end

