-- ==== Sys2Proof/Machine/PacketFramer.lean ====
section
/-!
DEFINITION. The packet framer unit PF (spec/42_packet_framer.md): `FROM_FIELDS`, `FROM_BYTES`, `TO_BYTES`, `UPDATE`,
`DECODED_SAMPLES`, `READ_FIELDS`. Every check of a command comes before its first write (R146), in the order of R144.
-/

namespace Sys2Proof.Machine

/-- R100, steps 1 to 4: the packet of a field construction, or its first failing check. -/
def packetOfFields (strict : Bool) (w8 : Mode) (fm : BitVec 6) (v : FieldValues) (samples : List Int) :
    Except Error Packet :=
  if fm = allFields then
    match reduceFields strict fm v v.masked with
    | .error e => .error e
    | .ok h =>
      match pack w8 samples h.expBytes with
      | .error e => .error e
      | .ok pay => .ok { hdr := h, pay := pay, mode := w8 }
  else .error (.incompleteHeader (~~~fm))

/-- R100 `FROM_FIELDS`. -/
def execFromFields (w8 : Mode) (fm : BitVec 6) (s : State) : Answer :=
  construct (packetOfFields s.sf w8 fm s.ports.fin s.ports.sin) s

/-- R101, steps 1 to 5: the packet of a buffer, or its first failing check. -/
def packetOfBytes (strict : Bool) (w8 : Mode) (bytes : List Byte) : Except Error Packet :=
  match hdrDecode bytes with
  | .error e => .error e
  | .ok h =>
    let need := Config.headerBytes + h.expBytes
    if bytes.length < need then .error (.truncatedPacket need bytes.length)
    else if strict ∧ need < bytes.length then .error (.excessLength need bytes.length)
    else .ok { hdr := h, pay := (bytes.drop Config.headerBytes).take h.expBytes, mode := w8 }

/-- R101 `FROM_BYTES`. -/
def execFromBytes (w8 : Mode) (s : State) : Answer := construct (packetOfBytes s.sl w8 s.ports.bin) s

/-- R102: the bytes of a packet, header then payload (R51). -/
def packetBytes (p : Packet) : List Byte := encodeHeader p.hdr ++ p.pay

/-- R102 `TO_BYTES`. -/
def execToBytes (s : State) : Answer := withPacket s fun p => complete (.bout (packetBytes p)) s

/-- R103, steps 2 to 4: the packet an update leaves, or its first failing check. -/
def updatedPacket (strict smp : Bool) (fm : BitVec 6) (v : FieldValues) (samples : List Int) (p : Packet) :
    Except Error Packet :=
  match reduceFields strict fm v p.hdr with
  | .error e => .error e
  | .ok h =>
    if smp then
      match pack p.mode samples h.expBytes with
      | .error e => .error e
      | .ok pay => .ok { hdr := h, pay := pay, mode := p.mode }
    else if p.pay.length = h.expBytes then .ok { hdr := h, pay := p.pay, mode := p.mode }
    else .error (.payloadLengthMismatch h.expBytes (components p.mode h.expBytes) (actualComponents p.mode p.pay))

/-- R103 `UPDATE`. Only with new samples is a payload written (R13, R17), so only then can the capacity refuse (R114; log
entry 10). -/
def execUpdate (smp : Bool) (fm : BitVec 6) (s : State) : Answer :=
  withPacket s fun p =>
    match updatedPacket s.sf smp fm s.ports.fin s.ports.sin p with
    | .error e => raise e s
    | .ok q => if smp then storePacket q s else complete .none (s.setCtx (some q))

/-- R104 `DECODED_SAMPLES`. -/
def execDecodedSamples (s : State) : Answer := withPacket s fun p => complete (.sout (unpack p.mode p.pay)) s

/-- R105 `READ_FIELDS`. -/
def execReadFields (s : State) : Answer := withPacket s fun p => complete (.fout p.hdr) s

end Sys2Proof.Machine
end

