-- ==== Sys2Proof/Machine/SampleSerializer.lean ====
section
/-!
DEFINITION. The sample serializer unit SS (spec/41_sample_serializer.md): `PACK_NIBBLES`, `UNPACK_NIBBLES`, `PACK_BYTES`,
`UNPACK_BYTES`. None reads or writes any state, and none reads `MODE` (R93).
-/

namespace Sys2Proof.Machine

/-- R85 `PACK_NIBBLES`: `SIN` against `NIN` complex samples. -/
def execPackNibbles (s : State) : Answer := finish ((packNibbles s.ports.sin s.ports.nin).map Output.bout) s

/-- R86 `UNPACK_NIBBLES`: `BIN` as pairs. "The function is total on byte sequences". -/
def execUnpackNibbles (s : State) : Answer := complete (.sout (.pairs (unpackNibbles s.ports.bin))) s

/-- R87 `PACK_BYTES`: `SIN` against `NIN` components. -/
def execPackBytes (s : State) : Answer := finish ((packBytes s.ports.sin s.ports.nin).map Output.bout) s

/-- R88 `UNPACK_BYTES`: `BIN` as single components. -/
def execUnpackBytes (s : State) : Answer := complete (.sout (.flat (unpackBytes s.ports.bin))) s

end Sys2Proof.Machine
end

