-- ==== Sys2Proof/Machine/Dispatch.lean ====
section
/-! DEFINITION. The meaning of every command (spec/30_encoding.md R63), one arm per constructor of Instr. -/

namespace Sys2Proof.Machine

def exec (i : Instr) (s : State) : Host.Outcome State Fault Refusal :=
  match i with
  | .hdrEncode => Sys2Proof.Machine.execHdrEncode s
  | .hdrDecode => Sys2Proof.Machine.execHdrDecode s
  | .packNibbles => Sys2Proof.Machine.execPackNibbles s
  | .unpackNibbles => Sys2Proof.Machine.execUnpackNibbles s
  | .packBytes => Sys2Proof.Machine.execPackBytes s
  | .unpackBytes => Sys2Proof.Machine.execUnpackBytes s
  | .fromFields w8 fm => Sys2Proof.Machine.execFromFields w8 fm s
  | .fromBytes w8 => Sys2Proof.Machine.execFromBytes w8 s
  | .toBytes => Sys2Proof.Machine.execToBytes s
  | .update smp fm => Sys2Proof.Machine.execUpdate smp fm s
  | .decodedSamples => Sys2Proof.Machine.execDecodedSamples s
  | .readFields => Sys2Proof.Machine.execReadFields s
  | .cfgWrite cfg => Sys2Proof.Machine.execCfgWrite cfg s
  | .cfgRead => Sys2Proof.Machine.execCfgRead s
  | .reset => Sys2Proof.Machine.execReset s

end Sys2Proof.Machine
end

