-- ==== Sys2Proof/Machine/Step.lean ====
section
/-!
DEFINITION. One step (spec/00_scope.md R6): "The engine takes one command with its operands, runs it to completion, and
returns one result". The next command is the next of the host's stream (log entry 2); with none the block is idle and
"keeps all its state" (R156; log entry 11).
-/

namespace Sys2Proof.Machine

/-- One step: issue the next command, decode its word and run it. -/
def step (s : State) : Host.Outcome State Fault Refusal :=
  match issueNext s with
  | none => .next s
  | some (w, s1) =>
    match decode w with
    | .ok i => exec i s1
    | .error e => raiseIllegal e s1

/-- `s` with the word of `nbits` bits (its bits above `nbits` zero) as the next command of the host's stream, issued with
the operands that stand on the ports. -/
def State.withFetchWord (s : State) (nbits w : Nat) : State :=
  s.setStream ({ word := BitVec.ofNat 16 (w % 2 ^ nbits), ports := s.ports } :: s.stream)

end Sys2Proof.Machine
end

