-- ==== Sys2Proof/Machine/Assembly.lean ====
section
/-!
DEFINITION. The textual form of commands and the pseudo-operations (spec/30_encoding.md R66, R67): a command with its named
operands, the request it is (its word and the operand ports), its text, and the expansions of the pseudo-operations. "Each
expands to commands of rule R63 and adds no behaviour."
-/

namespace Sys2Proof.Machine

/-- Named field operands, each written or left out (R66). -/
structure FieldArgs where
  fw : Option Int
  flags : Option Int
  nchan : Option Int
  schan : Option Int
  ant : Option Int
  snum : Option Int
  deriving DecidableEq, Repr

/-- A command with its named operands, as R66 writes it. -/
inductive Call where
  | hdrEncode (h : Header)
  | hdrDecode (bytes : List Byte)
  | packNibbles (n : Nat) (samples : List Int)
  | unpackNibbles (bytes : List Byte)
  | packBytes (n : Nat) (samples : List Int)
  | unpackBytes (bytes : List Byte)
  | fromFields (w8 : Mode) (fields : FieldArgs) (samples : List Int)
  | fromBytes (w8 : Mode) (bytes : List Byte)
  | toBytes
  | update (fields : FieldArgs) (samples : Option (List Int))
  | decodedSamples
  | readFields
  | cfgWrite (sf sl : Bool)
  | cfgRead
  | reset
  deriving DecidableEq, Repr

/-- No field operand written. -/
def FieldArgs.empty : FieldArgs :=
  { fw := none, flags := none, nchan := none, schan := none, ant := none, snum := none }

/-- The operand of field `i`, if it is written. -/
def FieldArgs.get (a : FieldArgs) (i : Fin 6) : Option Int :=
  match i with
  | 0 => a.fw
  | 1 => a.flags
  | 2 => a.nchan
  | 3 => a.schan
  | 4 => a.ant
  | 5 => a.snum

/-- R66: "A named field operand that is written sets its bit of `fm`; one that is left out clears it." -/
def FieldArgs.mask (a : FieldArgs) : BitVec 6 :=
  BitVec.ofBool a.snum.isSome ++ BitVec.ofBool a.ant.isSome ++ BitVec.ofBool a.schan.isSome ++
    BitVec.ofBool a.nchan.isSome ++ BitVec.ofBool a.flags.isSome ++ BitVec.ofBool a.fw.isSome

/-- The field operands as they stand on `FIN`; a port of a field left out is ignored (R64) and carries 0 here. -/
def FieldArgs.values (a : FieldArgs) : FieldValues :=
  { fw := a.fw.getD 0, flags := a.flags.getD 0, nchan := a.nchan.getD 0,
    schan := a.schan.getD 0, ant := a.ant.getD 0, snum := a.snum.getD 0 }

/-- The command of a call. "`samples=` on `UPDATE` sets `s`" (R66). -/
def Call.instr : Call → Instr
  | .hdrEncode _ => .hdrEncode
  | .hdrDecode _ => .hdrDecode
  | .packNibbles _ _ => .packNibbles
  | .unpackNibbles _ => .unpackNibbles
  | .packBytes _ _ => .packBytes
  | .unpackBytes _ => .unpackBytes
  | .fromFields w8 fields _ => .fromFields w8 fields.mask
  | .fromBytes w8 _ => .fromBytes w8
  | .toBytes => .toBytes
  | .update fields samples => .update samples.isSome fields.mask
  | .decodedSamples => .decodedSamples
  | .readFields => .readFields
  | .cfgWrite sf sl => .cfgWrite (BitVec.ofBool sl ++ BitVec.ofBool sf)
  | .cfgRead => .cfgRead
  | .reset => .reset

/-- The operands of a call on the operand ports (R64). -/
def Call.ports : Call → Ports
  | .hdrEncode h => { Ports.idle with hin := h }
  | .hdrDecode bytes => { Ports.idle with bin := bytes }
  | .packNibbles n samples => { Ports.idle with nin := n, sin := samples }
  | .unpackNibbles bytes => { Ports.idle with bin := bytes }
  | .packBytes n samples => { Ports.idle with nin := n, sin := samples }
  | .unpackBytes bytes => { Ports.idle with bin := bytes }
  | .fromFields _ fields samples => { Ports.idle with fin := fields.values, sin := samples }
  | .fromBytes _ bytes => { Ports.idle with bin := bytes }
  | .toBytes => Ports.idle
  | .update fields samples => { Ports.idle with fin := fields.values, sin := samples.getD [] }
  | .decodedSamples => Ports.idle
  | .readFields => Ports.idle
  | .cfgWrite _ _ => Ports.idle
  | .cfgRead => Ports.idle
  | .reset => Ports.idle

/-- The request of a call: its CMD16 word and its operands (R180). -/
def Call.request (c : Call) : Request := { word := encode c.instr, ports := c.ports }

/-! Pseudo-operations (R67) -/

/-- `SET_PAYLOAD samples=[...]`. -/
def setPayload (samples : List Int) : Call := .update FieldArgs.empty (some samples)

/-- The field operands that name field `i` alone. -/
def FieldArgs.only (i : Fin 6) (v : Int) : FieldArgs :=
  { fw := if i = 0 then some v else none, flags := if i = 1 then some v else none,
    nchan := if i = 2 then some v else none, schan := if i = 3 then some v else none,
    ant := if i = 4 then some v else none, snum := if i = 5 then some v else none }

/-- `SET_FIELD <name>=<v>`. -/
def setField (i : Fin 6) (v : Int) : Call := .update (FieldArgs.only i v) none

/-- The second command of `NEXT_FRAME`, after `READ_FIELDS` has given `h`: `UPDATE snum=<snum + 16>`, the sum exact and
"computed by the host". -/
def nextFrame (h : Header) : Call := setField 5 (h.snum.toNat + Config.timeSamples)

/-- `FROM_FIELDS` without a suffix is `FROM_FIELDS.w4`. -/
def fromFieldsDefault (fields : FieldArgs) (samples : List Int) : Call := .fromFields .bits4 fields samples

/-- `FROM_BYTES` without a suffix is `FROM_BYTES.w4`. -/
def fromBytesDefault (bytes : List Byte) : Call := .fromBytes .bits4 bytes

/-- The second command of `ROUNDTRIP`, after `TO_BYTES` has given `bytes`: `FROM_BYTES` "with the same width suffix". -/
def roundTrip (w8 : Mode) (bytes : List Byte) : Call := .fromBytes w8 bytes

/-! Text (R66). A number is written in decimal (log entry 14). -/

/-- A hexadecimal digit. -/
def hexDigit (n : Nibble) : String :=
  ["0", "1", "2", "3", "4", "5", "6", "7", "8", "9", "A", "B", "C", "D", "E", "F"].getD n.toNat "0"

/-- "Bytes are written as two hex digits each, separated by spaces, first wire byte first." -/
def bytesText (bytes : List Byte) : String :=
  " ".intercalate (bytes.map fun b => hexDigit (highNibble b) ++ hexDigit (lowNibble b))

/-- A sample sequence in brackets. -/
def samplesText (samples : List Int) : String := "[" ++ ", ".intercalate (samples.map toString) ++ "]"

/-- One named field operand, or nothing where it is left out. -/
def fieldText (name : String) (v : Option Int) : List String :=
  match v with
  | none => []
  | some x => [name ++ "=" ++ toString x]

/-- The named field operands that are written. -/
def FieldArgs.texts (a : FieldArgs) : List String :=
  fieldText "fw" a.fw ++ fieldText "flags" a.flags ++ fieldText "nchan" a.nchan ++
    fieldText "schan" a.schan ++ fieldText "ant" a.ant ++ fieldText "snum" a.snum

/-- A header operand as six named operands. -/
def Header.args (h : Header) : FieldArgs :=
  { fw := some h.fw.toNat, flags := some h.flags.toNat, nchan := some h.nchan.toNat,
    schan := some h.schan.toNat, ant := some h.ant.toNat, snum := some h.snum.toNat }

/-- The width suffix: `.w4`, or `.w8` "for 8-bit mode". -/
def widthSuffix : Mode → String
  | .bits4 => ".w4"
  | .bits8 => ".w8"

/-- A strictness bit as text. -/
def bitText (b : Bool) : String := if b then "1" else "0"

/-- The byte operand, with nothing for an empty sequence. -/
def bytesTexts (bytes : List Byte) : List String := if bytes = [] then [] else [bytesText bytes]

/-- The words of a call's text: the mnemonic with its suffix, then the named operands. -/
def Call.words : Call → List String
  | .hdrEncode h => "HDR_ENCODE" :: h.args.texts
  | .hdrDecode bytes => "HDR_DECODE" :: bytesTexts bytes
  | .packNibbles n samples => ["PACK_NIBBLES", "n=" ++ toString n, samplesText samples]
  | .unpackNibbles bytes => "UNPACK_NIBBLES" :: bytesTexts bytes
  | .packBytes n samples => ["PACK_BYTES", "n=" ++ toString n, samplesText samples]
  | .unpackBytes bytes => "UNPACK_BYTES" :: bytesTexts bytes
  | .fromFields w8 fields samples =>
    ("FROM_FIELDS" ++ widthSuffix w8) :: fields.texts ++ ["samples=" ++ samplesText samples]
  | .fromBytes w8 bytes => ("FROM_BYTES" ++ widthSuffix w8) :: bytesTexts bytes
  | .toBytes => ["TO_BYTES"]
  | .update fields none => "UPDATE" :: fields.texts
  | .update fields (some samples) => "UPDATE" :: fields.texts ++ ["samples=" ++ samplesText samples]
  | .decodedSamples => ["DECODED_SAMPLES"]
  | .readFields => ["READ_FIELDS"]
  | .cfgWrite sf sl => ["CFG_WRITE", "sf=" ++ bitText sf, "sl=" ++ bitText sl]
  | .cfgRead => ["CFG_READ"]
  | .reset => ["RESET"]

/-- The text of a call (R66). -/
def Call.text (c : Call) : String := " ".intercalate c.words

end Sys2Proof.Machine
end

