-- ==== Sys2Proof/Machine/Instances.lean ====
section
/-!
DEFINITION. Several instances of the block (spec/10_state.md R10, spec/60_exceptions.md R154): "instances share nothing, so
the state of `k` instances is the product of `k` copies of this table and a command to one instance changes nothing in
another." A system is the list of its instances' states, each with its own command stream.
-/

namespace Sys2Proof.Machine

/-- What a step of one instance of a system answers. -/
abbrev SystemAnswer := Host.Outcome (List State) Fault Refusal

/-- One step of instance `k`. There is no instance `k` past the end of the list; its step changes nothing (log entry 16). -/
def stepInstance (k : Nat) (sys : List State) : SystemAnswer :=
  match sys[k]? with
  | none => .next sys
  | some s =>
    match step s with
    | .next t => .next (sys.set k t)
    | .fault f => .fault f
    | .refused r => .refused r

end Sys2Proof.Machine
end

