-- ==== Sys2Proof/Safety.lean ====
section
/-!
DEFINITION. What the claims speak of: the state invariant (spec/10_state.md R18), which command may write which state (R13)
and which command can end with which status (spec/60_exceptions.md R145).
-/

namespace Sys2Proof.Machine

/-- R10, R18: the payload of a packet has the length its header implies, and fits the capacity. -/
def Packet.wf (cap : Nat) (p : Packet) : Bool := Memory.wf p.hdr p.pay && decide (p.pay.length ≤ cap)

/-- R18: "Whenever `CON = 1`: len(PAY) = EXP(HDR.nchan) = 32 * HDR.nchan", and no more. -/
def State.payloadMatches (s : State) : Bool :=
  match s.ctx with
  | none => true
  | some p => Memory.wf p.hdr p.pay

/-- R18 with R10's bound: the payload has the length its header implies, and `len(PAY) <= PAYLOAD_CAP`. -/
def State.wf (s : State) : Bool :=
  match s.ctx with
  | none => true
  | some p => p.wf s.cap

/-- The columns of R13's table that have a "w" for a command. `hdr` is a mask of field registers, bit `j` for `HDR[j]`. -/
structure Writes where
  hdr : BitVec 6
  pay : Bool
  con : Bool
  mode : Bool
  cfg : Bool
  deriving DecidableEq, Repr

/-- The rows of R13's table that have no "w". -/
def Writes.none : Writes := { hdr := 0, pay := false, con := false, mode := false, cfg := false }

/-- R13: what each command writes. `UPDATE` writes the supplied fields, and `PAY` "if samples supplied". `RESET` writes CON
and CFG; that it leaves no value in HDR, PAY and MODE is R23's rule for `CON = 0`. -/
def writes : Instr → Writes
  | .hdrEncode => Writes.none
  | .hdrDecode => Writes.none
  | .packNibbles => Writes.none
  | .unpackNibbles => Writes.none
  | .packBytes => Writes.none
  | .unpackBytes => Writes.none
  | .fromFields _ _ => { hdr := 0b111111, pay := true, con := true, mode := true, cfg := false }
  | .fromBytes _ => { hdr := 0b111111, pay := true, con := true, mode := true, cfg := false }
  | .toBytes => Writes.none
  | .update smp fm => { hdr := fm, pay := smp, con := false, mode := false, cfg := false }
  | .decodedSamples => Writes.none
  | .readFields => Writes.none
  | .cfgWrite _ => { Writes.none with cfg := true }
  | .cfgRead => Writes.none
  | .reset => { Writes.none with con := true, cfg := true }

/-- R147: whether the command constructs a packet, so that its failure leaves none. -/
def constructs : Instr → Bool
  | .fromFields _ _ => true
  | .fromBytes _ => true
  | .hdrEncode => false
  | .hdrDecode => false
  | .packNibbles => false
  | .unpackNibbles => false
  | .packBytes => false
  | .unpackBytes => false
  | .toBytes => false
  | .update _ _ => false
  | .decodedSamples => false
  | .readFields => false
  | .cfgWrite _ => false
  | .cfgRead => false
  | .reset => false

/-- R55: the value fits field register `i`, `0 <= v < 2^W[i]`. -/
def fits (i : Fin 6) (v : Int) : Prop := 0 ≤ v ∧ v < 2 ^ fieldWidth i

/-- R144: field `i` is the lowest supplied field whose value does not fit. -/
def lowestBadField (fm : BitVec 6) (v : FieldValues) (i : Fin 6) : Prop :=
  supplied fm i = true ∧ ¬fits i (v.get i) ∧ ∀ j, j < i → supplied fm j = true → fits j (v.get j)

/-- R55, R103: with `CFG.SF = 1` every supplied field value fits; with `CFG.SF = 0` no value is checked. -/
def fieldsAccepted (fm : BitVec 6) (s : State) : Prop :=
  s.sf = true → ∀ i, supplied fm i = true → fits i (s.ports.fin.get i)

/-- R100, R103: the channel count after an update of header `h`: the masked operand if it is supplied, else the old. -/
def newChannels (fm : BitVec 6) (v : FieldValues) (h : Header) : Nat :=
  if supplied fm 2 then (v.nchan % 65536).toNat else h.nchan.toNat

/-- R54: the number at field `i` of a wire header, `sum over j in [0, n[i]) of B[o[i] + j] * 256^(n[i] - 1 - j)`. -/
def wireField (bytes : List Byte) (i : Fin 6) : Nat :=
  ∑ j ∈ Finset.range (fieldBytes i), (bytes.getD (fieldOffset i + j) 0).toNat * 256 ^ (fieldBytes i - 1 - j)

/-- R85, R87, R106: `pay` is the packing of `samples` in mode `m`: the count is right, and byte `k` holds components
`2k` and `2k + 1` masked to 4 bits, real in the high nibble, or component `k` masked to 8 bits. -/
def packsTo (m : Mode) (samples : List Int) (pay : Memory) : Prop :=
  samples.length = components m pay.length ∧
    ∀ k < pay.length, ((pay.getD k 0).toNat : Int) =
      match m with
      | .bits4 => 16 * (samples.getD (2 * k) 0 % 16) + samples.getD (2 * k + 1) 0 % 16
      | .bits8 => samples.getD k 0 % 256

/-- R86: the flat component sequence of a sequence of pairs, real before imaginary. -/
def flattenPairs (xs : List (Int × Int)) : List Int := xs.flatMap fun x => [x.1, x.2]

/-- R56: the value of a nibble, "`v` if `v < 8`, else `v - 16`", with the nibble given as a number. -/
def nibbleValue (v : Nat) : Int := if v < 8 then v else v - 16

/-- The table of R145: command `i` in state `s` can end with error status `e` only where this holds. A blank cell is
`False`. -/
def StatusCell (i : Instr) (s : State) (e : Status) : Prop :=
  match i, e with
  | .hdrDecode, .truncatedPacket => s.ports.bin.length < 16
  | .packNibbles, .payloadLengthMismatch => s.ports.sin.length ≠ 2 * s.ports.nin
  | .packBytes, .payloadLengthMismatch => s.ports.sin.length ≠ s.ports.nin
  | .fromFields _ fm, .incompleteHeader => fm ≠ 0b111111
  | .fromFields w8 _, .payloadLengthMismatch =>
    s.ports.sin.length ≠ components w8 (32 * (s.ports.fin.nchan % 65536).toNat)
  | .fromFields _ fm, .fieldOutOfRange => ¬fieldsAccepted fm s
  | .fromBytes _, .truncatedPacket =>
    s.ports.bin.length < 16 ∨ s.ports.bin.length < 16 + 32 * wireField s.ports.bin 2
  | .fromBytes _, .excessLength => 16 + 32 * wireField s.ports.bin 2 < s.ports.bin.length ∧ s.sl = true
  | .toBytes, .notConstructed => s.con = false
  | .update smp fm, .payloadLengthMismatch => ∃ p, s.ctx = some p ∧
    (if smp then s.ports.sin.length ≠ components p.mode (32 * newChannels fm s.ports.fin p.hdr)
      else p.pay.length ≠ 32 * newChannels fm s.ports.fin p.hdr)
  | .update _ fm, .fieldOutOfRange => ¬fieldsAccepted fm s
  | .update _ _, .notConstructed => s.con = false
  | .decodedSamples, .notConstructed => s.con = false
  | .readFields, .notConstructed => s.con = false
  | _, _ => False

end Sys2Proof.Machine
end

