-- ==== Sys2Proof/Certificates/Slice0/Obligations.lean ====
section
/-!
DEFINITION. The statements for the provers, each a `def Obligations.<Name> : Prop`; OBLIGATIONS.json lists them with the
rules of spec/ they formalise. An equation `exec i s = .next { s with … }` is the command's completion, its result and
its whole frame at once: every field of the state that is not named keeps its value.
-/

open Sys2Proof Sys2Proof.Machine

/-! ## Command words -/

/-- R62, R63: the decoder reads back every command from the word the encoder writes, with every field at every value. -/
def Obligations.DecodeOfEncode : Prop := ∀ i : Instr, decode (encode i) = .ok i

/-- R62, R63: a word that decodes is the word of the command it decodes to, so no bit of it is dropped. -/
def Obligations.EncodeOfDecode : Prop := ∀ (w : CmdWord) (i : Instr), decode w = .ok i → encode i = w

/-- R63: "The rows are disjoint." No word selects two rows of the command table. -/
def Obligations.TableRowsDisjoint : Prop :=
  cmdTable.Pairwise fun r r' => ∀ w : CmdWord, ¬(rowSelects r w = true ∧ rowSelects r' w = true)

/-- R62, R65: a word selects a row of R63 exactly when it obeys the field rules of R62, and a rejection names the word. -/
def Obligations.DecodeRejectsExactlyIllFormedWords : Prop :=
  ∀ w : CmdWord,
    (checkWord w = none ↔ ∃ i, decode w = .ok i) ∧
      (checkWord w ≠ none ↔ decode w = .error (.illegalCommand w))

/-- R65: 273 of the 65,536 words are legal; every other word, issued in any state, ends with `IllegalCommand`, "changes no
state and returns nothing else". A `FROM_FIELDS` word whose `fm` is not all ones is legal as a word and fails at
execution with `IncompleteHeader`. -/
def Obligations.IllegalWordsEndWithIllegalCommand : Prop :=
  legalWords.length = 273 ∧ legalWords.Nodup ∧ (∀ w, w ∈ legalWords ↔ checkWord w = none) ∧
    (∀ (s : State) (r : Request) (rest : List Request), s.stream = r :: rest → r.word ∉ legalWords →
      step s = .next { s with
        stream := rest, ports := r.ports, result := some (.error (.illegalCommand r.word)) }) ∧
    (∀ (w8 : Mode) (fm : BitVec 6), encode (.fromFields w8 fm) ∈ legalWords) ∧
    ∀ (w8 : Mode) (fm : BitVec 6) (s : State), fm ≠ 0b111111 → ∃ missing t,
      exec (.fromFields w8 fm) s = .next t ∧ t.result = some (.error (.incompleteHeader missing))

/-- Words written out from the encodings of R63 decode to the commands they stand for. -/
def Obligations.WrittenOutWordsDecode : Prop :=
  decode 0b0000000000000000 = .ok .hdrEncode ∧ decode 0b0010000000000000 = .ok .packNibbles ∧
    decode 0b0110001111110000 = .ok (.fromFields .bits4 0b111111) ∧
    decode 0b0111100000000000 = .ok (.fromBytes .bits8) ∧
    decode 0b1001001000000000 = .ok (.update false 0b100000) ∧
    decode 0b1001010000000000 = .ok (.update true 0) ∧
    decode 0b1100000000000010 = .ok (.cfgWrite 0b10) ∧ decode 0b1110000000000000 = .ok .reset

/-! ## Steps and reset -/

/-- R6, R41: a step issues the next command of the stream, puts its operands on the ports and is `exec` of the decoded
command. The stream and the ports are the model's own fields (log entries 2 and 3). -/
def Obligations.StepRunsTheDecodedCommand : Prop :=
  ∀ (s : State) (r : Request) (rest : List Request) (i : Instr),
    s.stream = r :: rest → decode r.word = .ok i →
      step s = exec i { s with ports := r.ports, stream := rest }

/-- R156: "The block is idle between commands and keeps all its state while idle." -/
def Obligations.IdleStepKeepsState : Prop := ∀ s : State, s.stream = [] → step s = .next s

/-- R24: after reset `CON = 0`, `CFG.SF = 0`, `CFG.SL = 0`, and HDR, PAY and MODE hold no value. -/
def Obligations.ResetStateIsNotConstructedAndLegacy : Prop :=
  State.reset.con = false ∧ State.reset.sf = false ∧ State.reset.sl = false ∧ State.reset.ctx = none

/-- R132: `RESET` (word 0xE000) clears CON and CFG, has the effect of the reset of R165 on the block's state, changes
nothing else, and the four commands that need a packet then end with `NotConstructed`. -/
def Obligations.ResetCommandReachesResetState : Prop :=
  encode .reset = 0xE000 ∧
    ∀ s : State, ∃ t,
      exec .reset s = .next t ∧ t = { s with ctx := none, cfg := 0, result := some (.ok .none) } ∧
        t.ctx = State.reset.ctx ∧ t.cfg = State.reset.cfg ∧
        (s.ctx = State.reset.ctx → s.cfg = State.reset.cfg → t = { s with result := some (.ok .none) }) ∧
        ∀ (smp : Bool) (fm : BitVec 6) (i : Instr),
          i ∈ [.toBytes, .update smp fm, .decodedSamples, .readFields] →
            exec i t = .next { t with result := some (.error .notConstructed) }

/-! ## The header packer -/

/-- R75: the sixteen bytes of `HDR_ENCODE`, every field big-endian at its offset; it always completes. -/
def Obligations.HdrEncodeWritesFieldsBigEndian : Prop :=
  encode .hdrEncode = 0x0000 ∧
    ∀ s : State, ∃ bytes,
      exec .hdrEncode s = .next { s with result := some (.ok (.bout bytes)) } ∧ bytes.length = 16 ∧
        bytes[0]? = some s.ports.hin.fw ∧ bytes[1]? = some s.ports.hin.flags ∧
        (∀ j < 2, bytes[2 + j]? = some (BitVec.ofNat 8 (s.ports.hin.nchan.toNat >>> (8 * (1 - j))))) ∧
        (∀ j < 2, bytes[4 + j]? = some (BitVec.ofNat 8 (s.ports.hin.schan.toNat >>> (8 * (1 - j))))) ∧
        (∀ j < 2, bytes[6 + j]? = some (BitVec.ofNat 8 (s.ports.hin.ant.toNat >>> (8 * (1 - j))))) ∧
        ∀ j < 8, bytes[8 + j]? = some (BitVec.ofNat 8 (s.ports.hin.snum.toNat >>> (8 * (7 - j))))

/-- R76, R54: `HDR_DECODE` reads every field of the first sixteen bytes big-endian and unsigned, checks nothing but the
length, and ends with `TruncatedPacket` when fewer than sixteen bytes are given. -/
def Obligations.HdrDecodeReadsFieldsBigEndian : Prop :=
  encode .hdrDecode = 0x1000 ∧
    ∀ s : State,
      (16 ≤ s.ports.bin.length → ∃ h : Header,
        exec .hdrDecode s = .next { s with result := some (.ok (.fout h)) } ∧
          ∀ i, h.get i = wireField s.ports.bin i) ∧
      (s.ports.bin.length < 16 →
        exec .hdrDecode s =
          .next { s with result := some (.error (.truncatedPacket 16 s.ports.bin.length)) })

/-- R77: `HDR_ENCODE` and `HDR_DECODE` are inverse bijections between headers and 16-byte strings. -/
def Obligations.HeaderEncodeDecodeInverse : Prop :=
  (∀ (s t : State) (bytes : List Byte),
    exec .hdrEncode s = .next { s with result := some (.ok (.bout bytes)) } → t.ports.bin = bytes →
      exec .hdrDecode t = .next { t with result := some (.ok (.fout s.ports.hin)) }) ∧
    ∀ (s t : State) (h : Header),
      exec .hdrDecode s = .next { s with result := some (.ok (.fout h)) } → t.ports.hin = h →
        exec .hdrEncode t = .next { t with result := some (.ok (.bout (s.ports.bin.take 16))) }

/-! ## The sample serializer -/

/-- R85: `PACK_NIBBLES` packs exactly `2 * NIN` components, real in the high nibble, and ends with
`PayloadLengthMismatch` for any other count. -/
def Obligations.PackNibblesPacksPairs : Prop :=
  encode .packNibbles = 0x2000 ∧
    ∀ s : State,
      (s.ports.sin.length = 2 * s.ports.nin → ∃ bytes,
        exec .packNibbles s = .next { s with result := some (.ok (.bout bytes)) } ∧
          bytes.length = s.ports.nin ∧ packsTo .bits4 s.ports.sin bytes) ∧
      (s.ports.sin.length ≠ 2 * s.ports.nin →
        exec .packNibbles s = .next { s with
          result := some (.error (.payloadLengthMismatch s.ports.nin (2 * s.ports.nin) s.ports.sin.length)) })

/-- R86: `UNPACK_NIBBLES` gives one pair a byte, high nibble first, each "`v` if `v < 8`, else `v - 16`". -/
def Obligations.UnpackNibblesGivesSignedPairs : Prop :=
  encode .unpackNibbles = 0x3000 ∧
    ∀ s : State, ∃ xs : List (Int × Int),
      exec .unpackNibbles s = .next { s with result := some (.ok (.sout (.pairs xs))) } ∧
        xs.length = s.ports.bin.length ∧
        ∀ (k : Nat) (b : Byte), s.ports.bin[k]? = some b →
          xs[k]? = some (nibbleValue (b.toNat / 16), nibbleValue (b.toNat % 16))

/-- R87: `PACK_BYTES` masks exactly `NIN` components to a byte each, and ends with `PayloadLengthMismatch` for any other
count. -/
def Obligations.PackBytesMasksComponents : Prop :=
  encode .packBytes = 0x4000 ∧
    ∀ s : State,
      (s.ports.sin.length = s.ports.nin → ∃ bytes,
        exec .packBytes s = .next { s with result := some (.ok (.bout bytes)) } ∧
          bytes.length = s.ports.nin ∧ packsTo .bits8 s.ports.sin bytes) ∧
      (s.ports.sin.length ≠ s.ports.nin →
        exec .packBytes s = .next { s with
          result := some (.error (.payloadLengthMismatch s.ports.nin s.ports.nin s.ports.sin.length)) })

/-- R88: `UNPACK_BYTES` gives one unsigned integer a byte, flat. -/
def Obligations.UnpackBytesGivesUnsignedComponents : Prop :=
  encode .unpackBytes = 0x5000 ∧
    ∀ s : State, ∃ xs : List Int,
      exec .unpackBytes s = .next { s with result := some (.ok (.sout (.flat xs))) } ∧
        xs.length = s.ports.bin.length ∧
        ∀ (k : Nat) (b : Byte), s.ports.bin[k]? = some b → xs[k]? = some (b.toNat : Int)

/-- R89: on components in `[-8, 7]` packing and unpacking nibbles are inverse, for sequences of any length and both ways
round. -/
def Obligations.NibbleRoundTrip : Prop :=
  (∀ (s t : State) (bytes : List Byte),
    exec .packNibbles s = .next { s with result := some (.ok (.bout bytes)) } → t.ports.bin = bytes →
      (∀ v ∈ s.ports.sin, -8 ≤ v ∧ v ≤ 7) →
        ∃ xs, exec .unpackNibbles t = .next { t with result := some (.ok (.sout (.pairs xs))) } ∧
          flattenPairs xs = s.ports.sin) ∧
    ∀ (s t : State) (xs : List (Int × Int)),
      exec .unpackNibbles s = .next { s with result := some (.ok (.sout (.pairs xs))) } →
        t.ports.sin = flattenPairs xs → t.ports.nin = s.ports.bin.length →
          exec .packNibbles t = .next { t with result := some (.ok (.bout s.ports.bin)) }

/-- R90: whatever integers are packed, `PACK_NIBBLES` does not reject them, and what is read back is the representative
modulo 16 in `[-8, 7]` of each, in either setting of `CFG`. -/
def Obligations.NibbleComponentsReadBackModulo16 : Prop :=
  ∀ (s t : State), s.ports.sin.length = 2 * s.ports.nin → ∃ bytes,
    exec .packNibbles s = .next { s with result := some (.ok (.bout bytes)) } ∧
      (t.ports.bin = bytes → ∃ xs,
        exec .unpackNibbles t = .next { t with result := some (.ok (.sout (.pairs xs))) } ∧
          (flattenPairs xs).length = s.ports.sin.length ∧
          ∀ (k : Nat) (v r : Int), s.ports.sin[k]? = some v → (flattenPairs xs)[k]? = some r →
            -8 ≤ r ∧ r ≤ 7 ∧ r % 16 = v % 16)

/-- R92: packing and unpacking bytes are inverse on components in `[0, 255]`, both ways round; any other component, a
negative one too, comes back modulo 256. -/
def Obligations.ByteRoundTrip : Prop :=
  (∀ (s t : State) (bytes : List Byte),
    exec .packBytes s = .next { s with result := some (.ok (.bout bytes)) } → t.ports.bin = bytes →
      exec .unpackBytes t = .next { t with result := some (.ok (.sout (.flat (s.ports.sin.map (· % 256))))) } ∧
        ((∀ v ∈ s.ports.sin, 0 ≤ v ∧ v ≤ 255) → s.ports.sin.map (· % 256) = s.ports.sin)) ∧
    ∀ (s t : State) (xs : List Int),
      exec .unpackBytes s = .next { s with result := some (.ok (.sout (.flat xs))) } →
        t.ports.sin = xs → t.ports.nin = s.ports.bin.length →
          exec .packBytes t = .next { t with result := some (.ok (.bout s.ports.bin)) }

/-- R78, R93: the six commands of HP and SS neither read nor write any state: for given operands each ends with one
result, in every state. -/
def Obligations.HeaderAndSampleCommandsTouchNoState : Prop :=
  ∀ i ∈ [Instr.hdrEncode, .hdrDecode, .packNibbles, .unpackNibbles, .packBytes, .unpackBytes],
    ∀ ports : Ports, ∃ r : Result,
      ∀ s : State, s.ports = ports → exec i s = .next { s with result := some r }

/-! ## The packet framer: construction -/

/-- R100: `FROM_FIELDS` with all six fields, accepted values, the right sample count for the masked `numChannels` and room
for the payload constructs the packet: every field masked to its width, the samples packed in the mode of `w8`. -/
def Obligations.FromFieldsConstructs : Prop :=
  ∀ (w8 : Mode) (s : State) (n : Nat), n = (s.ports.fin.nchan % 65536).toNat →
    fieldsAccepted 0b111111 s → s.ports.sin.length = components w8 (32 * n) → 32 * n ≤ s.cap →
      ∃ p : Packet,
        exec (.fromFields w8 0b111111) s = .next { s with ctx := some p, result := some (.ok .none) } ∧
          p.mode = w8 ∧ (∀ i, (p.hdr.get i : Int) = s.ports.fin.get i % 2 ^ fieldWidth i) ∧
          p.pay.length = 32 * n ∧ packsTo w8 s.ports.sin p.pay

/-- R100, R144, R147: the failures of `FROM_FIELDS` in the order of its checks, each with its record, each leaving no
packet and changing nothing else. -/
def Obligations.FromFieldsFailsInOrder : Prop :=
  ∀ (w8 : Mode) (fm : BitVec 6) (s : State),
    (fm ≠ 0b111111 → ∃ missing : BitVec 6, (∀ i : Fin 6, missing.getLsbD i = !supplied fm i) ∧
      exec (.fromFields w8 fm) s =
        .next { s with ctx := none, result := some (.error (.incompleteHeader missing)) }) ∧
    (fm = 0b111111 → s.sf = true → ∀ i, lowestBadField fm s.ports.fin i →
      exec (.fromFields w8 fm) s = .next { s with
        ctx := none, result := some (.error (.fieldOutOfRange i (s.ports.fin.get i))) }) ∧
    (fm = 0b111111 → fieldsAccepted fm s → ∀ n, n = 32 * (s.ports.fin.nchan % 65536).toNat →
      s.ports.sin.length ≠ components w8 n →
        exec (.fromFields w8 fm) s = .next { s with
          ctx := none,
          result := some (.error (.payloadLengthMismatch n (components w8 n) s.ports.sin.length)) })

/-- R101: `FROM_BYTES` of a buffer long enough for the header and the payload its `numChannels` implies (exactly long
enough when `CFG.SL = 1`) constructs the packet: the header as decoded, the payload bytes as they are, the mode of `w8`. -/
def Obligations.FromBytesConstructs : Prop :=
  ∀ (w8 : Mode) (s : State) (n : Nat), n = 32 * wireField s.ports.bin 2 →
    16 ≤ s.ports.bin.length → 16 + n ≤ s.ports.bin.length →
      (s.sl = true → s.ports.bin.length = 16 + n) → n ≤ s.cap →
        ∃ p : Packet,
          exec (.fromBytes w8) s = .next { s with ctx := some p, result := some (.ok .none) } ∧
            p.mode = w8 ∧ (∀ i, p.hdr.get i = wireField s.ports.bin i) ∧ p.pay.length = n ∧
            ∀ k < n, p.pay[k]? = s.ports.bin[16 + k]?

/-- R101, R147: the failures of `FROM_BYTES`, each with its record, each leaving no packet and changing nothing else. -/
def Obligations.FromBytesFailsInOrder : Prop :=
  ∀ (w8 : Mode) (s : State) (n : Nat), n = 16 + 32 * wireField s.ports.bin 2 →
    (s.ports.bin.length < 16 → exec (.fromBytes w8) s = .next { s with
      ctx := none, result := some (.error (.truncatedPacket 16 s.ports.bin.length)) }) ∧
    (16 ≤ s.ports.bin.length → s.ports.bin.length < n → exec (.fromBytes w8) s = .next { s with
      ctx := none, result := some (.error (.truncatedPacket n s.ports.bin.length)) }) ∧
    (16 ≤ s.ports.bin.length → n < s.ports.bin.length → s.sl = true → exec (.fromBytes w8) s = .next { s with
      ctx := none, result := some (.error (.excessLength n s.ports.bin.length)) })

/-- R110: with `CFG.SL = 0` (and the default capacity) `FROM_BYTES` ends `OK` exactly when the buffer holds the header
and the payload it implies, `TruncatedPacket` otherwise, and then the state depends only on those bytes. -/
def Obligations.FromBytesReadsOnlyThePacket : Prop :=
  ∀ (w8 : Mode) (s : State), s.sl = false → s.cap = 2097120 →
    ((∃ t, exec (.fromBytes w8) s = .next t ∧ t.result = some (.ok .none)) ↔
      16 ≤ s.ports.bin.length ∧ 16 + 32 * wireField s.ports.bin 2 ≤ s.ports.bin.length) ∧
    ((∃ t need avail, exec (.fromBytes w8) s = .next t ∧ t.result = some (.error (.truncatedPacket need avail))) ↔
      ¬(16 ≤ s.ports.bin.length ∧ 16 + 32 * wireField s.ports.bin 2 ≤ s.ports.bin.length)) ∧
    ∀ (u t : State), u.sl = false → u.cap = 2097120 →
      exec (.fromBytes w8) s = .next t → t.result = some (.ok .none) →
        u.ports.bin.take (16 + 32 * wireField s.ports.bin 2) =
            s.ports.bin.take (16 + 32 * wireField s.ports.bin 2) →
          exec (.fromBytes w8) u = .next { u with ctx := t.ctx, result := some (.ok .none) }

/-! ## The packet framer: the packet in the context -/

/-- R102, R51: `TO_BYTES` gives the header bytes at their offsets, then the payload as stored; it changes no state; with
no packet it ends with `NotConstructed`. -/
def Obligations.ToBytesGivesHeaderThenPayload : Prop :=
  encode .toBytes = 0x8000 ∧
    ∀ s : State,
      (∀ p, s.ctx = some p → ∃ bytes : List Byte,
        exec .toBytes s = .next { s with result := some (.ok (.bout bytes)) } ∧
          bytes.length = 16 + p.pay.length ∧ (s.wf = true → bytes.length = 16 + 32 * p.hdr.nchan.toNat) ∧
          (∀ i, wireField bytes i = p.hdr.get i) ∧ ∀ k < p.pay.length, bytes[16 + k]? = p.pay[k]?) ∧
      (s.ctx = none → exec .toBytes s = .next { s with result := some (.error .notConstructed) })

/-- R103: `UPDATE` without samples, its values accepted and the stored payload of the right length: every supplied field
is masked and stored, every other field, the payload and the mode keep their values. There is no premise on the capacity:
where the stored payload is longer than PAYLOAD_CAP (a state that `State.wf` rules out) the completion is the model's choice,
log entry 10, and R103 does not give it. -/
def Obligations.UpdateFieldsKeepsTheRest : Prop :=
  ∀ (fm : BitVec 6) (s : State) (p : Packet), s.ctx = some p → fieldsAccepted fm s →
    p.pay.length = 32 * newChannels fm s.ports.fin p.hdr →
      ∃ h : Header,
        exec (.update false fm) s =
            .next { s with ctx := some { p with hdr := h }, result := some (.ok .none) } ∧
          ∀ i, (h.get i : Int) =
            if supplied fm i then s.ports.fin.get i % 2 ^ fieldWidth i else p.hdr.get i

/-- R103: `UPDATE` with samples, its values accepted, the samples of the right count for the resulting `numChannels` and
room for the payload: the supplied fields are stored and the samples packed in the mode the packet has. -/
def Obligations.UpdateSamplesRepacksPayload : Prop :=
  ∀ (fm : BitVec 6) (s : State) (p : Packet) (n : Nat), s.ctx = some p → fieldsAccepted fm s →
    n = 32 * newChannels fm s.ports.fin p.hdr → s.ports.sin.length = components p.mode n → n ≤ s.cap →
      ∃ q : Packet,
        exec (.update true fm) s = .next { s with ctx := some q, result := some (.ok .none) } ∧
          q.mode = p.mode ∧ q.pay.length = n ∧ packsTo p.mode s.ports.sin q.pay ∧
          ∀ i, (q.hdr.get i : Int) =
            if supplied fm i then s.ports.fin.get i % 2 ^ fieldWidth i else p.hdr.get i

/-- R103, R144: the failures of `UPDATE` in the order of its checks, each with its record, each changing nothing. -/
def Obligations.UpdateFailsInOrder : Prop :=
  ∀ (smp : Bool) (fm : BitVec 6) (s : State),
    (s.ctx = none → exec (.update smp fm) s = .next { s with result := some (.error .notConstructed) }) ∧
    ∀ p, s.ctx = some p →
      (s.sf = true → ∀ i, lowestBadField fm s.ports.fin i →
        exec (.update smp fm) s =
          .next { s with result := some (.error (.fieldOutOfRange i (s.ports.fin.get i))) }) ∧
      (fieldsAccepted fm s → ∀ n, n = 32 * newChannels fm s.ports.fin p.hdr →
        ∀ actual, actual = (if smp then s.ports.sin.length else components p.mode p.pay.length) →
          (if smp then s.ports.sin.length ≠ components p.mode n else p.pay.length ≠ n) →
            exec (.update smp fm) s = .next { s with
              result := some (.error (.payloadLengthMismatch n (components p.mode n) actual)) })

/-- R109: "Idempotent update": a second identical `UPDATE` ends as the first did and changes nothing. -/
def Obligations.UpdateIsIdempotent : Prop :=
  ∀ (smp : Bool) (fm : BitVec 6) (s t : State),
    exec (.update smp fm) s = .next t → exec (.update smp fm) t = .next t

/-- R104, R33, R36: `DECODED_SAMPLES` in the 4-bit mode gives one pair a payload byte, and in a well-formed packet the
sample of channel `c`, time `t`, polarisation `p` is pair `32*c + 2*t + p`; in the 8-bit mode it gives the payload bytes
as integers; with no packet it ends with `NotConstructed`. It changes no state. -/
def Obligations.DecodedSamplesReadsThePayload : Prop :=
  encode .decodedSamples = 0xA000 ∧
    ∀ s : State,
      (∀ q, s.ctx = some q → q.mode = .bits4 → ∃ xs : List (Int × Int),
        exec .decodedSamples s = .next { s with result := some (.ok (.sout (.pairs xs))) } ∧
          xs.length = q.pay.length ∧
          (∀ (k : Nat) (b : Byte), q.pay[k]? = some b →
            xs[k]? = some (nibbleValue (b.toNat / 16), nibbleValue (b.toNat % 16))) ∧
          (s.wf = true → xs.length = 32 * q.hdr.nchan.toNat ∧
            ∀ c t p, c < q.hdr.nchan.toNat → t < 16 → p < 2 → ∃ b : Byte,
              q.pay[32 * c + 2 * t + p]? = some b ∧
                xs[sampleIndex c t p]? = some (nibbleValue (b.toNat / 16), nibbleValue (b.toNat % 16)))) ∧
      (∀ q, s.ctx = some q → q.mode = .bits8 → ∃ xs : List Int,
        exec .decodedSamples s = .next { s with result := some (.ok (.sout (.flat xs))) } ∧
          xs.length = q.pay.length ∧ (s.wf = true → xs.length = 32 * q.hdr.nchan.toNat) ∧
          ∀ (k : Nat) (b : Byte), q.pay[k]? = some b → xs[k]? = some (b.toNat : Int)) ∧
      (s.ctx = none → exec .decodedSamples s = .next { s with result := some (.error .notConstructed) })

/-- R105: `READ_FIELDS` gives the six stored fields; with no packet it ends with `NotConstructed`. It changes no state. -/
def Obligations.ReadFieldsGivesStoredHeader : Prop :=
  encode .readFields = 0xB000 ∧
    ∀ s : State,
      (∀ p, s.ctx = some p → exec .readFields s = .next { s with result := some (.ok (.fout p.hdr)) }) ∧
      (s.ctx = none → exec .readFields s = .next { s with result := some (.error .notConstructed) })

/-- R108: what `FROM_FIELDS.wX` builds and `TO_BYTES` writes, `FROM_BYTES.wX` reads back to the same packet, in either
setting of `CFG.SL`; and what `FROM_BYTES` accepts, `TO_BYTES` writes back byte for byte. -/
def Obligations.PacketRoundTrip : Prop :=
  (∀ (w8 : Mode) (fm : BitVec 6) (s t u : State) (p : Packet) (bytes : List Byte),
    exec (.fromFields w8 fm) s = .next { s with ctx := some p, result := some (.ok .none) } →
      t.ctx = some p → exec .toBytes t = .next { t with result := some (.ok (.bout bytes)) } →
        u.ports.bin = bytes → s.cap ≤ u.cap →
          exec (.fromBytes w8) u = .next { u with ctx := some p, result := some (.ok .none) }) ∧
    ∀ (w8 : Mode) (s t : State) (p : Packet),
      exec (.fromBytes w8) s = .next { s with ctx := some p, result := some (.ok .none) } → t.ctx = some p →
        exec .toBytes t = .next { t with
          result := some (.ok (.bout (s.ports.bin.take (16 + 32 * p.hdr.nchan.toNat)))) }

/-- R111: after any construction or update that ends `OK` the payload has `32 * HDR.nchan` bytes and `TO_BYTES` returns
`16 + 32 * HDR.nchan`, from whatever state the command started. -/
def Obligations.PayloadSizeFollowsChannels : Prop :=
  ∀ (i : Instr) (s t : State),
    (∃ w8 fm, i = .fromFields w8 fm) ∨ (∃ w8, i = .fromBytes w8) ∨ (∃ smp fm, i = .update smp fm) →
      exec i s = .next t → t.result = some (.ok .none) →
        ∃ p bytes, t.ctx = some p ∧ p.pay.length = 32 * p.hdr.nchan.toNat ∧
          exec .toBytes t = .next { t with result := some (.ok (.bout bytes)) } ∧
          bytes.length = 16 + 32 * p.hdr.nchan.toNat

/-- R114: a command is refused exactly when it would end `OK` but for writing a payload longer than `PAYLOAD_CAP`; the
refusal comes after every check; with the default capacity it never happens. That an `UPDATE` without samples is never
refused, the last clause, is the model's choice, log entry 10. -/
def Obligations.RefusedOnlyBeyondCapacity : Prop :=
  (∀ (i : Instr) (s : State) (r : Refusal), exec i s = .refused r →
    ∃ p : Packet, r = .payloadCapacity p.pay.length s.cap ∧ s.cap < p.pay.length ∧
      ∀ c, p.pay.length ≤ c →
        exec i { s with cap := c } = .next { s with cap := c, ctx := some p, result := some (.ok .none) }) ∧
    (∀ (i : Instr) (s : State) (c : Nat) (p : Packet),
      (∃ w8 fm, i = .fromFields w8 fm) ∨ (∃ w8, i = .fromBytes w8) ∨ (∃ fm, i = .update true fm) →
        exec i { s with cap := c } = .next { s with cap := c, ctx := some p, result := some (.ok .none) } →
          s.cap < p.pay.length → exec i s = .refused (.payloadCapacity p.pay.length s.cap)) ∧
    (∀ (i : Instr) (s : State) (r : Refusal), s.cap = 2097120 → exec i s ≠ .refused r) ∧
    ∀ (fm : BitVec 6) (s : State) (r : Refusal), exec (.update false fm) s ≠ .refused r

/-! ## Control commands -/

/-- R130: `CFG_WRITE` sets both strictness options, bit 0 `SF` and bit 1 `SL`, and changes nothing else, in every state. -/
def Obligations.CfgWriteSetsBothOptions : Prop :=
  ∀ c : BitVec 2, encode (.cfgWrite c) = 0xC000 ||| c.setWidth 16 ∧
    ∀ s : State, ∃ t,
      exec (.cfgWrite c) s = .next t ∧ t = { s with cfg := c, result := some (.ok .none) } ∧
        t.sf = c.getLsbD 0 ∧ t.sl = c.getLsbD 1

/-- R131: `CFG_READ` returns both strictness options and changes nothing, in every state; after reset it returns 0b00. -/
def Obligations.CfgReadReturnsBothOptions : Prop :=
  encode .cfgRead = 0xD000 ∧
    ∀ s : State, ∃ c : BitVec 2,
      exec .cfgRead s = .next { s with result := some (.ok (.cout c)) } ∧
        c.getLsbD 0 = s.sf ∧ c.getLsbD 1 = s.sl ∧ (s.cfg = State.reset.cfg → c = 0b00)

/-! ## The whole machine -/

/-- R140, R114: every command, in every state, ends with one result, `OK` or one error, or is refused for its payload's
size; nothing else stops the machine. -/
def Obligations.EveryCommandEndsWithAResult : Prop :=
  ∀ (i : Instr) (s : State),
    (∃ t r, exec i s = .next t ∧ t.result = some r) ∨
      ∃ need, exec i s = .refused (.payloadCapacity need s.cap) ∧ s.cap < need

/-- R145: which command can end with which error status: an error is one whose cell of the table has a condition, and
that condition holds; and where the condition of some cell holds, the command ends with an error (which one, where
several hold, is the order of R144). -/
def Obligations.ErrorStatusesAreThoseOfTheTable : Prop :=
  (∀ (i : Instr) (s t : State) (e : Error),
    exec i s = .next t → t.result = some (.error e) → StatusCell i s e.status) ∧
  ∀ (i : Instr) (s : State) (status : Status), StatusCell i s status →
    ∃ t e, exec i s = .next t ∧ t.result = some (.error e)

/-- R158, R157: with `CFG = 0` a command of the source ends in error with one of the three errors of §7 or, where there is
no packet, with `NotConstructed`; each of the three can occur; so nothing R157 lists is an error. -/
def Obligations.LegacyErrorsAreTheThreeOfTheSource : Prop :=
  (∀ (i : Instr) (s t : State) (e : Error), s.cfg = 0 → exec i s = .next t → t.result = some (.error e) →
    e.status ∈ [.incompleteHeader, .payloadLengthMismatch, .truncatedPacket] ∨
      (e.status = .notConstructed ∧ s.con = false)) ∧
    ∀ status ∈ [Status.incompleteHeader, .payloadLengthMismatch, .truncatedPacket],
      ∃ (i : Instr) (s t : State) (e : Error),
        s.cfg = 0 ∧ exec i s = .next t ∧ t.result = some (.error e) ∧ e.status = status

/-- R141: the eight status codes, and `OK` exactly for results that are no error. -/
def Obligations.StatusCodesAreThoseOfTheTable : Prop :=
  [Status.ok, .incompleteHeader, .payloadLengthMismatch, .truncatedPacket, .fieldOutOfRange, .excessLength,
      .notConstructed, .illegalCommand].map Status.code = [0, 1, 2, 3, 4, 5, 6, 7] ∧
    (∀ a b : Status, a.code = b.code → a = b) ∧ ∀ r : Result, r.status = .ok ↔ r.info = none

/-- R146, R147: a command that ends with an error writes no state, except that a failed construction leaves `CON = 0`. -/
def Obligations.ErrorsWriteNoState : Prop :=
  ∀ (i : Instr) (s t : State) (e : Error),
    exec i s = .next t → t.result = some (.error e) →
      t = { s with ctx := if constructs i then none else s.ctx, result := some (.error e) }

/-- R13: column by column, a command writes CON, `CFG`, each field register, PAY and MODE only where the table has a "w"
(HDR, PAY and MODE have a value to keep only where there is a packet before and after, R23). The last line is the model's
own, no rule of the spec: no command writes the capacity (log entry 4), the operand ports (log entry 3) or the host's
stream (log entry 2). -/
def Obligations.CommandsWriteOnlyTheirState : Prop :=
  ∀ (i : Instr) (s t : State), exec i s = .next t →
    ((writes i).con = false → t.con = s.con) ∧ ((writes i).cfg = false → t.cfg = s.cfg) ∧
      (∀ p q, s.ctx = some p → t.ctx = some q →
        (∀ j, supplied (writes i).hdr j = false → q.hdr.get j = p.hdr.get j) ∧
          ((writes i).pay = false → q.pay = p.pay) ∧ ((writes i).mode = false → q.mode = p.mode)) ∧
      t.cap = s.cap ∧ t.ports = s.ports ∧ t.stream = s.stream

/-- R103: the frame of `UPDATE`, whatever its status: it neither constructs nor destroys a packet, keeps the mode and
every field not supplied, and without samples every payload byte. That it keeps the capacity, the operand ports and the
host's stream is the model's own (log entries 4, 3 and 2). -/
def Obligations.UpdateFrame : Prop :=
  ∀ (smp : Bool) (fm : BitVec 6) (s t : State), exec (.update smp fm) s = .next t →
    t.cfg = s.cfg ∧ t.cap = s.cap ∧ t.ports = s.ports ∧ t.stream = s.stream ∧ t.con = s.con ∧
      (∀ p q, s.ctx = some p → t.ctx = some q →
        q.mode = p.mode ∧ ∀ i, supplied fm i = false → q.hdr.get i = p.hdr.get i) ∧
      (smp = false → ∀ k, t.payByte k = s.payByte k)

/-- R22: two commands with the same state (R10) and the same operands give the same result and the same state, whatever
else stands in the model's own fields. -/
def Obligations.ResultsDependOnStateAndOperandsOnly : Prop :=
  ∀ (i : Instr) (s : State) (stream : List Request) (last : Option Result),
    (∀ t, exec i s = .next t →
      exec i { s with stream := stream, result := last } = .next { t with stream := stream }) ∧
    ∀ r, exec i s = .refused r → exec i { s with stream := stream, result := last } = .refused r

/-- R16: `MODE` is written by `FROM_FIELDS` and `FROM_BYTES` from the command's `w8` bit, and by nothing else. -/
def Obligations.ModeComesFromConstructionOnly : Prop :=
  ∀ (i : Instr) (s t : State) (q : Packet), exec i s = .next t → t.ctx = some q →
    (∀ w8 fm, i = .fromFields w8 fm → q.mode = w8) ∧ (∀ w8, i = .fromBytes w8 → q.mode = w8) ∧
      (constructs i = false → ∃ p, s.ctx = some p ∧ q.mode = p.mode)

/-- R15: CON is set by a construction that ends `OK`, cleared by `RESET` and by a failed construction, left as it is by
every other command whatever its status, and read by the four commands that end with `NotConstructed` when it is 0. -/
def Obligations.ConstructedFlagRules : Prop :=
  State.reset.con = false ∧
    (∀ (i : Instr) (s t : State) (r : Result), exec i s = .next t → t.result = some r →
      t.con = (if constructs i then decide (r.status = .ok) else if i = .reset then false else s.con)) ∧
    ∀ (s : State) (smp : Bool) (fm : BitVec 6) (i : Instr), s.con = false →
      i ∈ [.toBytes, .update smp fm, .decodedSamples, .readFields] →
        exec i s = .next { s with result := some (.error .notConstructed) }

/-- R9: "The only field the block computes with is `numChannels`". What differs in the other five fields only makes no
difference to the result, the payload and the mode: in the operands of `FROM_FIELDS` (their values accepted: any values in
legacy mode), in the operands of `UPDATE` and the header it starts from, in the buffer of `FROM_BYTES`, and in the header
of the packet whose samples `DECODED_SAMPLES` reads. -/
def Obligations.OnlyChannelCountIsInterpreted : Prop :=
  (∀ (w8 : Mode) (fm : BitVec 6) (s s' t : State) (v : FieldValues),
    s' = { s with ports := { s.ports with fin := v } } → v.nchan = s.ports.fin.nchan →
      fieldsAccepted fm s → fieldsAccepted fm s' → exec (.fromFields w8 fm) s = .next t →
        ∃ u, exec (.fromFields w8 fm) s' = .next u ∧ u.result = t.result ∧
          u.ctx.map Packet.pay = t.ctx.map Packet.pay ∧ u.ctx.map Packet.mode = t.ctx.map Packet.mode) ∧
    (∀ (smp : Bool) (fm : BitVec 6) (s s' t : State) (v : FieldValues) (p : Packet) (h : Header),
      s.ctx = some p → s' = { s with ctx := some { p with hdr := h }, ports := { s.ports with fin := v } } →
        h.nchan = p.hdr.nchan → v.nchan = s.ports.fin.nchan → fieldsAccepted fm s → fieldsAccepted fm s' →
          exec (.update smp fm) s = .next t →
            ∃ u, exec (.update smp fm) s' = .next u ∧ u.result = t.result ∧
              u.ctx.map Packet.pay = t.ctx.map Packet.pay ∧ u.ctx.map Packet.mode = t.ctx.map Packet.mode) ∧
    (∀ (w8 : Mode) (s s' t : State) (bytes : List Byte),
      s' = { s with ports := { s.ports with bin := bytes } } → bytes.length = s.ports.bin.length →
        (∀ k, (k = 2 ∨ k = 3 ∨ 16 ≤ k) → bytes[k]? = s.ports.bin[k]?) → exec (.fromBytes w8) s = .next t →
          ∃ u, exec (.fromBytes w8) s' = .next u ∧ u.result = t.result ∧
            u.ctx.map Packet.pay = t.ctx.map Packet.pay ∧ u.ctx.map Packet.mode = t.ctx.map Packet.mode) ∧
    ∀ (s : State) (p : Packet) (h : Header), s.ctx = some p → ∃ r : Result,
      exec .decodedSamples s = .next { s with result := some r } ∧
        exec .decodedSamples { s with ctx := some { p with hdr := h } } =
          .next { s with ctx := some { p with hdr := h }, result := some r }

/-- R30, R54: the big-endian write puts `(v >> 8*(n-1-i)) mod 256` at byte `a + i`, leaves every other byte alone, and the
read of those bytes gives the value back. -/
def Obligations.BigEndianWriteThenRead : Prop :=
  ∀ (bytes : List Byte) (a n v : Nat), a + n ≤ bytes.length → v < 256 ^ n →
    (memWrite bytes a n v).length = bytes.length ∧
      (∀ i < n, (memWrite bytes a n v)[a + i]? = some (BitVec.ofNat 8 (v >>> (8 * (n - 1 - i))))) ∧
      (∀ k, (k < a ∨ a + n ≤ k) → (memWrite bytes a n v)[k]? = bytes[k]?) ∧
      memRead (memWrite bytes a n v) a n = v

/-- R33, R38: the payload index is a bijection between (channel, time, polarisation) and the numbers below
`32 * numChannels`, in the order channel slowest, polarisation fastest; the components of a sample stand at `2k` and
`2k + 1` of the sample sequence. -/
def Obligations.PayloadIndexIsTheNestedOrder : Prop :=
  (∀ c t p : Nat, t < 16 → p < 2 →
    sampleIndex c t p = 32 * c + 2 * t + p ∧ sampleCoord (sampleIndex c t p) = (c, t, p) ∧
      realIndex c t p = 64 * c + 4 * t + 2 * p ∧ imagIndex c t p = 64 * c + 4 * t + 2 * p + 1 ∧
      ∀ n, c < n ↔ sampleIndex c t p < 32 * n) ∧
    ∀ k c t p : Nat, sampleCoord k = (c, t, p) → t < 16 ∧ p < 2 ∧ sampleIndex c t p = k

/-- R66, R64: the request of a call has a legal word and decodes to the call's command; its `fm` has a field's bit exactly
when that field operand is written, with the written value on `FIN`; `samples=` on `UPDATE` sets `s`; the width suffix, `sf`
and `sl` stand in the word; and the header, the bytes, the samples and the count that are written stand on their ports. -/
def Obligations.CallRequestCarriesItsOperands : Prop :=
  (∀ c : Call, checkWord c.request.word = none ∧ decode c.request.word = .ok c.instr) ∧
    (∀ (a : FieldArgs) (i : Fin 6),
      (supplied a.mask i = true ↔ ∃ v, a.get i = some v) ∧
        ∀ (v : Int) (w8 : Mode) (xs : List Int) (smp : Option (List Int)), a.get i = some v →
          (Call.fromFields w8 a xs).request.ports.fin.get i = v ∧
            (Call.update a smp).request.ports.fin.get i = v) ∧
    (∀ (w8 : Mode) (a : FieldArgs) (xs : List Int),
      decode (Call.fromFields w8 a xs).request.word = .ok (.fromFields w8 a.mask) ∧
        decode (Call.update a none).request.word = .ok (.update false a.mask) ∧
        decode (Call.update a (some xs)).request.word = .ok (.update true a.mask) ∧
        (Call.fromFields w8 a xs).request.ports.sin = xs ∧ (Call.update a (some xs)).request.ports.sin = xs) ∧
    (∀ h : Header, (Call.hdrEncode h).request.ports.hin = h) ∧
    (∀ (w8 : Mode) (bytes : List Byte),
      decode (Call.fromBytes w8 bytes).request.word = .ok (.fromBytes w8) ∧
        ∀ c ∈ [Call.hdrDecode bytes, .unpackNibbles bytes, .unpackBytes bytes, .fromBytes w8 bytes],
          c.request.ports.bin = bytes) ∧
    (∀ (n : Nat) (xs : List Int), ∀ c ∈ [Call.packNibbles n xs, .packBytes n xs],
      c.request.ports.nin = n ∧ c.request.ports.sin = xs) ∧
    ∀ sf sl : Bool, ∃ cfg : BitVec 2, decode (Call.cfgWrite sf sl).request.word = .ok (.cfgWrite cfg) ∧
      cfg.getLsbD 0 = sf ∧ cfg.getLsbD 1 = sl

/-- R67 `NEXT_FRAME`: the step that issues `UPDATE snum=<snum + 16>` on a well-formed packet in legacy mode advances
`sampleNumber` by 16 modulo 2^64 and keeps the rest of the packet. -/
def Obligations.NextFrameAdvancesSampleNumber : Prop :=
  ∀ (s : State) (p : Packet) (rest : List Request),
    s.ctx = some p → s.wf = true → s.sf = false → s.stream = (nextFrame p.hdr).request :: rest →
      step s = .next { s with
        stream := rest, ports := (nextFrame p.hdr).request.ports,
        ctx := some { p with hdr := { p.hdr with snum := p.hdr.snum + 16 } }, result := some (.ok .none) }

/-- R10, R154: a step of one instance is a step of its own state and changes nothing in another. -/
def Obligations.InstancesShareNothing : Prop :=
  ∀ (k : Nat) (sys sys' : List State), stepInstance k sys = .next sys' →
    sys'.length = sys.length ∧ (∀ j, j ≠ k → sys'[j]? = sys[j]?) ∧
      ∀ s, sys[k]? = some s → ∃ t, step s = .next t ∧ sys'[k]? = some t

/-- R18: every step, from whatever state, keeps the invariant: whenever `CON = 1`, `len(PAY) = 32 * HDR.nchan`; and it keeps
R10's bound with it, `len(PAY) <= PAYLOAD_CAP`. -/
def Obligations.StepKeepsPayloadInvariant : Prop :=
  ∀ s t : State, step s = .next t →
    (s.payloadMatches = true → t.payloadMatches = true) ∧ (s.wf = true → t.wf = true)

/-- R18, R24: the invariant holds after reset, and says of a constructed packet that its payload has `32 * HDR.nchan`
bytes, and with R10's bound at most `PAYLOAD_CAP`. -/
def Obligations.ResetMeetsPayloadInvariant : Prop :=
  State.reset.payloadMatches = true ∧ State.reset.wf = true ∧
    ∀ (s : State) (p : Packet), s.ctx = some p →
      (s.payloadMatches = true ↔ p.pay.length = 32 * p.hdr.nchan.toNat) ∧
        (s.wf = true ↔ p.pay.length = 32 * p.hdr.nchan.toNat ∧ p.pay.length ≤ s.cap)
end

