-- ==== Sys2Proof/Laws/Decode.lean ====
section
/-!
SUPPORT. What the decoder can answer (spec/30_encoding.md R63, R65), and words taken apart into the fields of R62, so that
a row of the command table is read field by field. Cite these rather than unfold `decode`.
-/

namespace Sys2Proof

/-- A word from all its fields, the two bits of R62 that must be 0 among them. -/
def wordOfFields (op : BitVec 4) (w8 s : BitVec 1) (fm : BitVec 6) (rs cfg : BitVec 2) : CmdWord :=
  op ++ w8 ++ s ++ fm ++ rs ++ cfg

/-- R62: every word is its fields. -/
theorem wordOfFields_extract (w : CmdWord) :
    wordOfFields (w.extractLsb' 12 4) (w.extractLsb' 11 1) (w.extractLsb' 10 1) (w.extractLsb' 4 6)
      (w.extractLsb' 2 2) (w.extractLsb' 0 2) = w := by
  unfold wordOfFields
  apply BitVec.eq_of_getLsbD_eq
  intro i hi
  simp only [BitVec.getLsbD_append, BitVec.getLsbD_extractLsb']
  interval_cases i <;> simp

/-- Two concatenations of the same widths agree exactly when their parts do. -/
theorem append_eq_iff {m n : Nat} (a c : BitVec m) (b d : BitVec n) : a ++ b = c ++ d ↔ a = c ∧ b = d := by
  constructor
  · intro h
    constructor
    · simpa [BitVec.extractLsb'_append_eq_left] using congrArg (BitVec.extractLsb' n m) h
    · simpa [BitVec.extractLsb'_append_eq_right] using congrArg (BitVec.extractLsb' 0 n) h
  · rintro ⟨rfl, rfl⟩; rfl

/-- R62: two words agree exactly when all their fields do. -/
theorem wordOfFields_inj (op op' : BitVec 4) (w8 w8' s s' : BitVec 1) (fm fm' : BitVec 6) (rs rs' cfg cfg' : BitVec 2) :
    wordOfFields op w8 s fm rs cfg = wordOfFields op' w8' s' fm' rs' cfg' ↔
      op = op' ∧ w8 = w8' ∧ s = s' ∧ fm = fm' ∧ rs = rs' ∧ cfg = cfg' := by
  unfold wordOfFields
  have h : (op ++ w8 ++ s ++ fm ++ rs ++ cfg : BitVec (4 + 1 + 1 + 6 + 2 + 2)) = op' ++ w8' ++ s' ++ fm' ++ rs' ++ cfg' ↔
      op = op' ∧ w8 = w8' ∧ s = s' ∧ fm = fm' ∧ rs = rs' ∧ cfg = cfg' := by
    simp only [append_eq_iff, and_assoc]
  exact h

/-- R63: masking a word masks its fields. -/
theorem wordOfFields_and (op op' : BitVec 4) (w8 w8' s s' : BitVec 1) (fm fm' : BitVec 6) (rs rs' cfg cfg' : BitVec 2) :
    wordOfFields op w8 s fm rs cfg &&& wordOfFields op' w8' s' fm' rs' cfg' =
      wordOfFields (op &&& op') (w8 &&& w8') (s &&& s') (fm &&& fm') (rs &&& rs') (cfg &&& cfg') := by
  have h : (op ++ w8 ++ s ++ fm ++ rs ++ cfg : BitVec (4 + 1 + 1 + 6 + 2 + 2)) &&& (op' ++ w8' ++ s' ++ fm' ++ rs' ++ cfg') =
      (op &&& op') ++ (w8 &&& w8') ++ (s &&& s') ++ (fm &&& fm') ++ (rs &&& rs') ++ (cfg &&& cfg') := by
    simp only [BitVec.and_append]
  exact h

/-- R63: a row whose `match` and `mask` are given by fields selects a word field by field. -/
theorem rowSelects_fields (name : String) (build : CmdWord → Instr) (op o1 o2 : BitVec 4)
    (w8 a1 a2 s s1 s2 : BitVec 1) (fm f1 f2 : BitVec 6) (rs r1 r2 cfg c1 c2 : BitVec 2) :
    rowSelects ⟨name, wordOfFields o1 a1 s1 f1 r1 c1, wordOfFields o2 a2 s2 f2 r2 c2, build⟩
        (wordOfFields op w8 s fm rs cfg) = true ↔
      op &&& o2 = o1 ∧ w8 &&& a2 = a1 ∧ s &&& s2 = s1 ∧ fm &&& f2 = f1 ∧ rs &&& r2 = r1 ∧ cfg &&& c2 = c1 := by
  unfold rowSelects
  dsimp only
  rw [beq_iff_eq, wordOfFields_and, wordOfFields_inj]

/-- R63: what a decoded word is: the command of a row that selects it. -/
theorem decode_ok {w : CmdWord} {i : Instr} (h : decode w = .ok i) :
    ∃ r ∈ cmdTable, rowSelects r w = true ∧ i = r.build w := by
  unfold decode at h
  split at h
  · rename_i r hr
    cases h
    exact ⟨r, List.mem_of_find?_eq_some hr, by simpa using List.find?_some hr, rfl⟩
  · cases h

/-- R65: a rejected word selects no row, and the rejection names it. -/
theorem decode_error {w : CmdWord} {e : DecodeError} (h : decode w = .error e) :
    e = .illegalCommand w ∧ ∀ r ∈ cmdTable, rowSelects r w ≠ true := by
  unfold decode at h
  split at h
  · cases h
  · rename_i hr
    cases h
    exact ⟨rfl, by simpa using hr⟩

/-- R62: the fields of a word given by its fields. -/
theorem extract_wordOfFields (op : BitVec 4) (w8 s : BitVec 1) (fm : BitVec 6) (rs cfg : BitVec 2) :
    (wordOfFields op w8 s fm rs cfg).extractLsb' 12 4 = op ∧ (wordOfFields op w8 s fm rs cfg).extractLsb' 11 1 = w8 ∧
      (wordOfFields op w8 s fm rs cfg).extractLsb' 10 1 = s ∧ (wordOfFields op w8 s fm rs cfg).extractLsb' 4 6 = fm ∧
      (wordOfFields op w8 s fm rs cfg).extractLsb' 2 2 = rs ∧ (wordOfFields op w8 s fm rs cfg).extractLsb' 0 2 = cfg :=
  (wordOfFields_inj ..).mp (wordOfFields_extract (wordOfFields op w8 s fm rs cfg))

end Sys2Proof
end

