-- ==== Sys2Proof/Laws/State.lean ====
section
/-!
SUPPORT. The setters of State, field by field: what each writes and what it leaves, all true by rfl. The outcomes of the
shared operations as record updates, for proofs that compare states.
-/

namespace Sys2Proof.Machine

@[simp] theorem State.setCtx_ctx (s : State) (c : Option Packet) : (s.setCtx c).ctx = c := rfl
@[simp] theorem State.setCtx_cfg (s : State) (c : Option Packet) : (s.setCtx c).cfg = s.cfg := rfl
@[simp] theorem State.setCtx_cap (s : State) (c : Option Packet) : (s.setCtx c).cap = s.cap := rfl
@[simp] theorem State.setCtx_ports (s : State) (c : Option Packet) : (s.setCtx c).ports = s.ports := rfl
@[simp] theorem State.setCtx_stream (s : State) (c : Option Packet) : (s.setCtx c).stream = s.stream := rfl
@[simp] theorem State.setCtx_result (s : State) (c : Option Packet) : (s.setCtx c).result = s.result := rfl

@[simp] theorem State.setCfg_ctx (s : State) (c : BitVec 2) : (s.setCfg c).ctx = s.ctx := rfl
@[simp] theorem State.setCfg_cfg (s : State) (c : BitVec 2) : (s.setCfg c).cfg = c := rfl
@[simp] theorem State.setCfg_cap (s : State) (c : BitVec 2) : (s.setCfg c).cap = s.cap := rfl
@[simp] theorem State.setCfg_ports (s : State) (c : BitVec 2) : (s.setCfg c).ports = s.ports := rfl
@[simp] theorem State.setCfg_stream (s : State) (c : BitVec 2) : (s.setCfg c).stream = s.stream := rfl
@[simp] theorem State.setCfg_result (s : State) (c : BitVec 2) : (s.setCfg c).result = s.result := rfl

@[simp] theorem State.setPorts_ctx (s : State) (p : Ports) : (s.setPorts p).ctx = s.ctx := rfl
@[simp] theorem State.setPorts_cfg (s : State) (p : Ports) : (s.setPorts p).cfg = s.cfg := rfl
@[simp] theorem State.setPorts_cap (s : State) (p : Ports) : (s.setPorts p).cap = s.cap := rfl
@[simp] theorem State.setPorts_ports (s : State) (p : Ports) : (s.setPorts p).ports = p := rfl
@[simp] theorem State.setPorts_stream (s : State) (p : Ports) : (s.setPorts p).stream = s.stream := rfl
@[simp] theorem State.setPorts_result (s : State) (p : Ports) : (s.setPorts p).result = s.result := rfl

@[simp] theorem State.setStream_ctx (s : State) (rs : List Request) : (s.setStream rs).ctx = s.ctx := rfl
@[simp] theorem State.setStream_cfg (s : State) (rs : List Request) : (s.setStream rs).cfg = s.cfg := rfl
@[simp] theorem State.setStream_cap (s : State) (rs : List Request) : (s.setStream rs).cap = s.cap := rfl
@[simp] theorem State.setStream_ports (s : State) (rs : List Request) : (s.setStream rs).ports = s.ports := rfl
@[simp] theorem State.setStream_stream (s : State) (rs : List Request) : (s.setStream rs).stream = rs := rfl
@[simp] theorem State.setStream_result (s : State) (rs : List Request) : (s.setStream rs).result = s.result := rfl

@[simp] theorem State.setResult_ctx (s : State) (r : Result) : (s.setResult r).ctx = s.ctx := rfl
@[simp] theorem State.setResult_cfg (s : State) (r : Result) : (s.setResult r).cfg = s.cfg := rfl
@[simp] theorem State.setResult_cap (s : State) (r : Result) : (s.setResult r).cap = s.cap := rfl
@[simp] theorem State.setResult_ports (s : State) (r : Result) : (s.setResult r).ports = s.ports := rfl
@[simp] theorem State.setResult_stream (s : State) (r : Result) : (s.setResult r).stream = s.stream := rfl
@[simp] theorem State.setResult_result (s : State) (r : Result) : (s.setResult r).result = some r := rfl

theorem State.setCtx_eq (s : State) (c : Option Packet) : s.setCtx c = { s with ctx := c } := rfl

theorem State.setCfg_eq (s : State) (c : BitVec 2) : s.setCfg c = { s with cfg := c } := rfl

theorem State.setPorts_eq (s : State) (p : Ports) : s.setPorts p = { s with ports := p } := rfl

theorem State.setStream_eq (s : State) (rs : List Request) : s.setStream rs = { s with stream := rs } := rfl

theorem State.setResult_eq (s : State) (r : Result) : s.setResult r = { s with result := some r } := rfl

/-- Presenting the operands that stand on the ports already, and the stream that stands, changes nothing. -/
@[simp] theorem State.setPorts_self (s : State) : s.setPorts s.ports = s := rfl

@[simp] theorem State.setStream_self (s : State) : s.setStream s.stream = s := rfl

end Sys2Proof.Machine
end

