-- ==== Sys2Proof/Laws/Ops.lean ====
section
/-!
SUPPORT. What each shared operation can do, said once: ending a command, packing, the bytes of a nibble pair, byte
sequences, and that every write of a payload keeps its form (R18). Cite these rather than unfold the operations.
-/

namespace Sys2Proof.Machine

/-! Ending a command -/

/-- R140: a command that completes changes the result ports only. -/
theorem complete_eq (out : Output) (s : State) : complete out s = .next { s with result := some (.ok out) } := rfl

/-- R146: an error changes the result ports only. -/
theorem raise_eq (e : Error) (s : State) : raise e s = .next { s with result := some (.error e) } := rfl

/-- R147: a failed construction leaves no packet and changes nothing else but the result ports. -/
theorem raiseConstruction_eq (e : Error) (s : State) :
    raiseConstruction e s = .next { s with ctx := none, result := some (.error e) } := rfl

/-- A command that changes no state ends with its one result. -/
theorem finish_eq (r : Except Error Output) (s : State) :
    ∃ res, finish r s = .next { s with result := some res } := by
  cases r with
  | ok out => exact ⟨.ok out, rfl⟩
  | error e => exact ⟨.error e, rfl⟩

theorem withPacket_none {s : State} (h : s.ctx = none) (f : Packet → Answer) :
    withPacket s f = .next { s with result := some (.error .notConstructed) } := by
  unfold withPacket
  split
  · rfl
  · rename_i p hp
    rw [h] at hp
    cases hp

/-- R10, R23: there is a packet or there is none. -/
theorem State.ctx_cases (s : State) : s.ctx = none ∨ ∃ p, s.ctx = some p := by
  cases s.ctx with
  | none => exact .inl rfl
  | some p => exact .inr ⟨p, rfl⟩

theorem withPacket_some {s : State} {p : Packet} (h : s.ctx = some p) (f : Packet → Answer) :
    withPacket s f = f p := by
  unfold withPacket; rw [h]

theorem storePacket_fits {p : Packet} {s : State} (h : p.pay.length ≤ s.cap) :
    storePacket p s = .next { s with ctx := some p, result := some (.ok .none) } := by
  unfold storePacket; rw [if_pos h]; rfl

theorem storePacket_refuses {p : Packet} {s : State} (h : s.cap < p.pay.length) :
    storePacket p s = .refused (.payloadCapacity p.pay.length s.cap) := by
  unfold storePacket; rw [if_neg (Nat.not_le.mpr h)]

/-- Everything a store can answer with a next state. -/
theorem storePacket_next {p : Packet} {s t : State} (h : storePacket p s = .next t) :
    p.pay.length ≤ s.cap ∧ t = { s with ctx := some p, result := some (.ok .none) } := by
  by_cases hc : p.pay.length ≤ s.cap
  · rw [storePacket_fits hc] at h
    exact ⟨hc, (Host.Outcome.next.inj h).symm⟩
  · rw [storePacket_refuses (Nat.not_le.mp hc)] at h
    cases h

/-- Everything a construction can answer with a next state: the packet with room for it, or an error and no packet. -/
theorem construct_next {r : Except Error Packet} {s t : State} (h : construct r s = .next t) :
    (∃ p, r = .ok p ∧ p.pay.length ≤ s.cap ∧ t = { s with ctx := some p, result := some (.ok .none) }) ∨
      ∃ e, r = .error e ∧ t = { s with ctx := none, result := some (.error e) } := by
  cases r with
  | ok p =>
    obtain ⟨hc, ht⟩ := storePacket_next h
    exact .inl ⟨p, rfl, hc, ht⟩
  | error e => exact .inr ⟨e, rfl, (Host.Outcome.next.inj h).symm⟩

/-- Everything an update can answer with a next state. -/
theorem execUpdate_next {smp : Bool} {fm : BitVec 6} {s t : State} (h : execUpdate smp fm s = .next t) :
    (s.ctx = none ∧ t = { s with result := some (.error .notConstructed) }) ∨
      ∃ p, s.ctx = some p ∧
        ((∃ e, updatedPacket s.sf smp fm s.ports.fin s.ports.sin p = .error e ∧
            t = { s with result := some (.error e) }) ∨
          ∃ q, updatedPacket s.sf smp fm s.ports.fin s.ports.sin p = .ok q ∧
            (smp = true → q.pay.length ≤ s.cap) ∧
            t = { s with ctx := some q, result := some (.ok .none) }) := by
  obtain hp | ⟨p, hp⟩ := s.ctx_cases
  · rw [execUpdate, withPacket_none hp] at h
    exact .inl ⟨hp, (Host.Outcome.next.inj h).symm⟩
  · rw [execUpdate, withPacket_some hp] at h
    refine .inr ⟨p, hp, ?_⟩
    cases hu : updatedPacket s.sf smp fm s.ports.fin s.ports.sin p with
    | error e =>
      rw [hu] at h
      exact .inl ⟨e, rfl, (Host.Outcome.next.inj h).symm⟩
    | ok q =>
      rw [hu] at h
      cases smp with
      | true =>
        obtain ⟨hc, ht⟩ := storePacket_next h
        exact .inr ⟨q, rfl, fun _ => hc, ht⟩
      | false => exact .inr ⟨q, rfl, nofun, (Host.Outcome.next.inj h).symm⟩

/-! Widths and nibbles -/

/-- R8: `mask` is the non-negative remainder. -/
theorem mask_toNat (w : Nat) (v : Int) : ((mask w v).toNat : Int) = v % 2 ^ w := by
  unfold mask
  rw [BitVec.toNat_ofInt]
  have h : (0 : Int) < 2 ^ w := by positivity
  simpa using Int.toNat_of_nonneg (Int.emod_nonneg v h.ne')

/-- R56: the byte of a nibble pair as a number. -/
theorem cs8_toNat (re im : Int) : ((cs8 re im).toNat : Int) = 16 * (re % 16) + im % 16 := by
  have key : ∀ a b : BitVec 4, ((a.setWidth 8 <<< 4) ||| b.setWidth 8).toNat = 16 * a.toNat + b.toNat := by decide
  have hr := mask_toNat 4 re
  have hi := mask_toNat 4 im
  unfold cs8
  rw [key]
  push_cast
  rw [hr, hi]
  norm_num

/-- R56: the pair of a byte, with the byte given as a number. -/
theorem cs8Pair_eq (b : Byte) : cs8Pair b = (nibbleValue (b.toNat / 16), nibbleValue (b.toNat % 16)) := by
  revert b
  decide

/-- R56: the pair of the byte two components pack into: each modulo 16, read as a two's-complement nibble. -/
theorem cs8Pair_cs8 (re im : Int) :
    cs8Pair (cs8 re im) = (nibbleValue (re % 16).toNat, nibbleValue (im % 16).toNat) := by
  have h := cs8_toNat re im
  have h1 : (cs8 re im).toNat / 16 = (re % 16).toNat := by omega
  have h2 : (cs8 re im).toNat % 16 = (im % 16).toNat := by omega
  rw [cs8Pair_eq, h1, h2]

/-! Packing -/

/-- R85: two components make one byte. -/
theorem nibbleBytes_length : ∀ {n : Nat} {samples : List Int}, samples.length = 2 * n →
    (nibbleBytes samples).length = n
  | 0, [], _ => rfl
  | n + 1, _ :: _ :: rest, h => by
    have hr : rest.length = 2 * n := by simp at h; omega
    simp [nibbleBytes, nibbleBytes_length hr]
  | n + 1, [_], h => by simp at h; omega

/-- R85: byte `k` packs components `2k` and `2k + 1`. -/
theorem nibbleBytes_getD : ∀ {n : Nat} {samples : List Int}, samples.length = 2 * n → ∀ k < n,
    (nibbleBytes samples).getD k 0 = cs8 (samples.getD (2 * k) 0) (samples.getD (2 * k + 1) 0)
  | n + 1, re :: im :: rest, h, 0, _ => rfl
  | n + 1, re :: im :: rest, h, k + 1, hk => by
    have hr : rest.length = 2 * n := by simp at h; omega
    have ih := nibbleBytes_getD hr k (by omega)
    simpa [nibbleBytes, Nat.mul_add] using ih
  | n + 1, [_], h, _, _ => by simp at h; omega

/-- R106: a pack of the right count answers exactly the expected bytes, and they are the packing. -/
theorem pack_right_count {m : Mode} {samples : List Int} {n : Nat} (h : samples.length = components m n) :
    ∃ pay, pack m samples n = .ok pay ∧ pay.length = n ∧ packsTo m samples pay := by
  cases m with
  | bits4 =>
    have hl : samples.length = 2 * n := h
    have hp := nibbleBytes_length hl
    refine ⟨nibbleBytes samples, by simp [pack, packNibbles, hl], hp, ?_, ?_⟩
    · rw [hp]; exact h
    · intro k hk
      rw [hp] at hk
      rw [nibbleBytes_getD hl k hk]
      exact cs8_toNat _ _
  | bits8 =>
    have hl : samples.length = n := h
    refine ⟨samples.map (mask 8), by simp [pack, packBytes, hl], by simp [hl], ?_, ?_⟩
    · simp [components]
    · intro k hk
      have hk' : k < samples.length := by simpa using hk
      have hb := mask_toNat 8 samples[k]
      simpa [List.getD_eq_getElem?_getD, hk'] using hb

/-- R106: a pack of any other count is `PayloadLengthMismatch` with the expectation in bytes and in components. -/
theorem pack_wrong_count {m : Mode} {samples : List Int} {n : Nat} (h : samples.length ≠ components m n) :
    pack m samples n = .error (.payloadLengthMismatch n (components m n) samples.length) := by
  cases m with
  | bits4 => simp [pack, packNibbles, components] at h ⊢; exact h
  | bits8 => simp [pack, packBytes, components] at h ⊢; exact h

/-- A pack that answers bytes answers as many as were expected. -/
theorem pack_length {m : Mode} {samples : List Int} {n : Nat} {pay : List Byte}
    (h : pack m samples n = .ok pay) : pay.length = n := by
  by_cases hc : samples.length = components m n
  · obtain ⟨pay', h', hl, _⟩ := pack_right_count hc
    rw [h] at h'
    cases h'
    exact hl
  · rw [pack_wrong_count hc] at h
    cases h

/-! Byte sequences -/

@[simp] theorem beBytes_length (n v : Nat) : (beBytes n v).length = n := by
  induction n with
  | zero => rfl
  | succ n ih => simp [beBytes, ih]

/-- A big-endian write keeps the length of the sequence. -/
theorem memWrite_length {bytes : List Byte} {a n : Nat} (v : Nat) (h : a + n ≤ bytes.length) :
    (memWrite bytes a n v).length = bytes.length := by
  simp [memWrite]
  omega

/-! The payload store keeps its form (R18) -/

theorem Memory.wf_iff (h : Header) (pay : Memory) : Memory.wf h pay = true ↔ pay.length = h.expBytes := by
  simp [Memory.wf]

/-- R100: a field construction makes a payload of the length its header implies. -/
theorem packetOfFields_wf {strict : Bool} {w8 : Mode} {fm : BitVec 6} {v : FieldValues} {samples : List Int}
    {p : Packet} (h : packetOfFields strict w8 fm v samples = .ok p) : Memory.wf p.hdr p.pay = true := by
  unfold packetOfFields at h
  split at h
  · split at h
    · cases h
    · split at h
      · cases h
      · rename_i pay hp
        cases h
        rw [Memory.wf_iff]
        exact pack_length hp
  · cases h

/-- R101: a parse takes a payload of the length its header implies. -/
theorem packetOfBytes_wf {strict : Bool} {w8 : Mode} {bytes : List Byte} {p : Packet}
    (h : packetOfBytes strict w8 bytes = .ok p) : Memory.wf p.hdr p.pay = true := by
  unfold packetOfBytes at h
  split at h
  · cases h
  · dsimp only at h
    split at h
    · cases h
    · split at h
      · cases h
      · rename_i hn _
        cases h
        rw [Memory.wf_iff, List.length_take, List.length_drop]
        dsimp only
        omega

/-- R103: an update leaves a payload of the length its header implies, whatever it started from. -/
theorem updatedPacket_wf {strict smp : Bool} {fm : BitVec 6} {v : FieldValues} {samples : List Int} {p q : Packet}
    (h : updatedPacket strict smp fm v samples p = .ok q) : Memory.wf q.hdr q.pay = true := by
  unfold updatedPacket at h
  split at h
  · cases h
  · split at h
    · split at h
      · cases h
      · rename_i pay hp
        cases h
        rw [Memory.wf_iff]
        exact pack_length hp
    · split at h
      · rename_i hl
        cases h
        rw [Memory.wf_iff]
        exact hl
      · cases h

/-- R103: an update without samples keeps the payload. -/
theorem updatedPacket_keeps_pay {strict : Bool} {fm : BitVec 6} {v : FieldValues} {samples : List Int} {p q : Packet}
    (h : updatedPacket strict false fm v samples p = .ok q) : q.pay = p.pay := by
  unfold updatedPacket at h
  split at h
  · cases h
  · split at h
    · split at h
      · cases h
      · contradiction
    · split at h
      · cases h; rfl
      · cases h

/-- R16: an update keeps the mode. -/
theorem updatedPacket_keeps_mode {strict smp : Bool} {fm : BitVec 6} {v : FieldValues} {samples : List Int}
    {p q : Packet} (h : updatedPacket strict smp fm v samples p = .ok q) : q.mode = p.mode := by
  unfold updatedPacket at h
  split at h
  · cases h
  · split at h
    · split at h
      · cases h
      · cases h; rfl
    · split at h
      · cases h; rfl
      · cases h

/-! Steps -/

/-- Everything a step can be: idle, the decoded command on the state with its operands, or the illegal word's error. -/
theorem step_cases (s : State) :
    (s.stream = [] ∧ step s = .next s) ∨
      ∃ r rest, s.stream = r :: rest ∧
        ((∃ i, decode r.word = .ok i ∧ step s = exec i { s with ports := r.ports, stream := rest }) ∨
          ∃ e, decode r.word = .error e ∧
            step s = raiseIllegal e { s with ports := r.ports, stream := rest }) := by
  cases hs : s.stream with
  | nil =>
    refine .inl ⟨rfl, ?_⟩
    unfold step issueNext
    rw [hs]
  | cons r rest =>
    refine .inr ⟨r, rest, rfl, ?_⟩
    cases hd : decode r.word with
    | ok i =>
      refine .inl ⟨i, rfl, ?_⟩
      unfold step issueNext
      rw [hs]
      dsimp only
      rw [hd]
      rfl
    | error e =>
      refine .inr ⟨e, rfl, ?_⟩
      unfold step issueNext
      rw [hs]
      dsimp only
      rw [hd]
      rfl

/-- A word placed by `withFetchWord` that decodes is run by the very next step, on the state it was placed in. -/
theorem step_withFetchWord {s : State} {nbits w : Nat} {i : Instr} (h : decodeTableWord nbits w = some i) :
    step (s.withFetchWord nbits w) = exec i s := by
  unfold decodeTableWord at h
  unfold step issueNext State.withFetchWord
  split at h
  · rename_i j hj
    cases h
    simp only [State.setStream_stream]
    rw [hj]
    rfl
  · cases h

end Sys2Proof.Machine
end

