-- ==== Sys2Proof/Laws/PerInstr.lean ====
section
/-!
SUPPORT. Statements about every command as syntax, one lemma per constructor. `Legal`: the word the encoder writes obeys
the field rules of R62 and R65, with every field at every value.
-/

namespace Sys2Proof.Laws.Legal

/-- R62, R65: the word of the command is a legal command word. -/
def Statement (i : Instr) : Prop := wellFormedWord (encode i) = true

theorem hdrEncode : Statement .hdrEncode := by unfold Statement; decide

theorem hdrDecode : Statement .hdrDecode := by unfold Statement; decide

theorem packNibbles : Statement .packNibbles := by unfold Statement; decide

theorem unpackNibbles : Statement .unpackNibbles := by unfold Statement; decide

theorem packBytes : Statement .packBytes := by unfold Statement; decide

theorem unpackBytes : Statement .unpackBytes := by unfold Statement; decide

theorem fromFields (w8 : Mode) (fm : BitVec 6) : Statement (.fromFields w8 fm) := by
  unfold Statement
  cases w8 <;> (revert fm; decide)

theorem fromBytes (w8 : Mode) : Statement (.fromBytes w8) := by
  unfold Statement
  cases w8 <;> decide

theorem toBytes : Statement .toBytes := by unfold Statement; decide

theorem update (smp : Bool) (fm : BitVec 6) : Statement (.update smp fm) := by
  unfold Statement
  cases smp <;> (revert fm; decide)

theorem decodedSamples : Statement .decodedSamples := by unfold Statement; decide

theorem readFields : Statement .readFields := by unfold Statement; decide

theorem cfgWrite (cfg : BitVec 2) : Statement (.cfgWrite cfg) := by
  unfold Statement
  revert cfg
  decide

theorem cfgRead : Statement .cfgRead := by unfold Statement; decide

theorem reset : Statement .reset := by unfold Statement; decide

end Sys2Proof.Laws.Legal
end

