-- ==== Sys2Proof/Tests/Slice0.lean ====
section
/-!
SUPPORT. The model's own tests. Expected values are those of spec/95_test_vectors.md (V<n>, P<n>) and of the examples in
the commands' rules; each test names its source. The witnesses at the end show, for each statement with hypotheses, a
state and operands that meet them all.
-/

namespace Sys2Proof.Tests

open Sys2Proof.Machine

/-! ## Helpers -/

/-- The result a command or step ends with, if it answers a next state. -/
def resultOf (a : Answer) : Option Result :=
  match a with
  | .next s => s.result
  | .fault _ => none
  | .refused _ => none

/-- The packet context a command or step leaves, if it answers a next state. -/
def ctxOf (a : Answer) : Option (Option Packet) :=
  match a with
  | .next s => some s.ctx
  | .fault _ => none
  | .refused _ => none

/-- The value of CFG a command or step leaves, if it answers a next state. -/
def cfgOf (a : Answer) : Option (BitVec 2) :=
  match a with
  | .next s => some s.cfg
  | .fault _ => none
  | .refused _ => none

/-- The refusal a command or step answers, if it does. -/
def refusalOf (a : Answer) : Option Refusal :=
  match a with
  | .next _ => none
  | .fault _ => none
  | .refused r => some r

/-- The reset state with operands on the ports and a value of CFG. -/
def given (cfg : BitVec 2) (p : Ports) : State := { State.reset with cfg := cfg, ports := p }

/-- The reset state holding a packet, with operands on the ports and a value of CFG. -/
def holding (pkt : Packet) (cfg : BitVec 2) (p : Ports) : State :=
  { State.reset with ctx := some pkt, cfg := cfg, ports := p }

/-- A header operand for HDR_ENCODE. -/
def header (h : Header) : Ports := { Ports.idle with hin := h }

/-- Bytes on BIN. -/
def bytes (bs : List Byte) : Ports := { Ports.idle with bin := bs }

/-- Samples on SIN and a count on NIN. -/
def samples (n : Nat) (xs : List Int) : Ports := { Ports.idle with sin := xs, nin := n }

/-- Field operands on FIN and samples on SIN. -/
def fields (fw flags nchan schan ant snum : Int) (xs : List Int) : Ports :=
  { Ports.idle with
    fin := { fw := fw, flags := flags, nchan := nchan, schan := schan, ant := ant, snum := snum }, sin := xs }

/-- The header of the examples of R100 to R105. -/
def hdr0 : Header := { fw := 0x81, flags := 0x03, nchan := 0, schan := 2, ant := 0, snum := 0xDEADBEEF }

/-- The packet of the examples of R100 to R105: a header alone. -/
def pkt0 : Packet := { hdr := hdr0, pay := [], mode := .bits4 }

/-- A packet of one channel, its 32 payload bytes alike. -/
def pkt1 (m : Mode) (b : Byte) : Packet :=
  { hdr := { fw := 0x81, flags := 1, nchan := 1, schan := 0, ant := 0, snum := 0 }, pay := List.replicate 32 b, mode := m }

/-- The sixteen header bytes of the 18-byte buffer of V17. -/
def wire0 : List Byte :=
  [0x81, 0x03, 0x00, 0x00, 0x00, 0x02, 0x00, 0x00, 0x00, 0x00, 0x00, 0x00, 0xDE, 0xAD, 0xBE, 0xEF]

/-! ## Command words (V21, R63, R65) -/

theorem test_decode_hdr_encode : decode 0b0000000000000000 = .ok .hdrEncode := by rfl
theorem test_decode_hdr_decode : decode 0b0001000000000000 = .ok .hdrDecode := by rfl
theorem test_decode_pack_nibbles : decode 0b0010000000000000 = .ok .packNibbles := by rfl
theorem test_decode_unpack_nibbles : decode 0b0011000000000000 = .ok .unpackNibbles := by rfl
theorem test_decode_pack_bytes : decode 0b0100000000000000 = .ok .packBytes := by rfl
theorem test_decode_unpack_bytes : decode 0b0101000000000000 = .ok .unpackBytes := by rfl
theorem test_decode_from_fields_w4 : decode 0b0110001111110000 = .ok (.fromFields .bits4 0b111111) := by rfl
theorem test_decode_from_fields_w8 : decode 0b0110101111110000 = .ok (.fromFields .bits8 0b111111) := by rfl
theorem test_decode_from_fields_no_nchan : decode 0b0110001110110000 = .ok (.fromFields .bits4 0b111011) := by rfl
theorem test_decode_from_bytes_w8 : decode 0b0111100000000000 = .ok (.fromBytes .bits8) := by rfl
theorem test_decode_to_bytes : decode 0b1000000000000000 = .ok .toBytes := by rfl
theorem test_decode_update_snum : decode 0b1001001000000000 = .ok (.update false 0b100000) := by rfl
theorem test_decode_update_samples : decode 0b1001010000000000 = .ok (.update true 0b000000) := by rfl
theorem test_decode_update_nchan_snum_samples : decode 0b1001011001000000 = .ok (.update true 0b100100) := by rfl
theorem test_decode_decoded_samples : decode 0b1010000000000000 = .ok .decodedSamples := by rfl
theorem test_decode_read_fields : decode 0b1011000000000000 = .ok .readFields := by rfl
theorem test_decode_cfg_write : decode 0b1100000000000011 = .ok (.cfgWrite 0b11) := by rfl
theorem test_decode_cfg_read : decode 0b1101000000000000 = .ok .cfgRead := by rfl
theorem test_decode_reset : decode 0b1110000000000000 = .ok .reset := by rfl

/-- V21: the illegal words of the table are rejected. -/
theorem test_decode_illegal :
    [0xF000, 0xFFFF, 0x0800, 0x8001, 0x6400, 0x9800, 0xC004, 0x7001].all (fun w : CmdWord =>
      decode w matches .error (.illegalCommand _)) = true := by decide

/-! An ill-formed word for each check of WellFormed, which the check refuses. -/

theorem test_ill_formed_reserved_op : checkWord 0xF000 = some .reservedOp := by decide
theorem test_ill_formed_w8 : checkWord 0x0800 = some .w8Bit := by decide
theorem test_ill_formed_s : checkWord 0x6400 = some .sBit := by decide
theorem test_ill_formed_fm : checkWord 0x7010 = some .fmBits := by decide
theorem test_ill_formed_reserved_bits : checkWord 0xC004 = some .reservedBits := by decide
theorem test_ill_formed_cfg : checkWord 0x8001 = some .cfgBits := by decide
theorem test_well_formed : wellFormedWord 0x9640 = true := by decide

/-! ## The header packer (V10, V11) -/

/-- V10, row 3: the byte order of every multi-byte field at once. -/
theorem test_hdr_encode_byte_order :
    resultOf (exec .hdrEncode (given 0 (header
      { fw := 0x80, flags := 0x01, nchan := 0x0100, schan := 0x0200, ant := 0x0003, snum := 0x0102030405060708 })))
      = some (.ok (.bout [0x80, 0x01, 0x01, 0x00, 0x02, 0x00, 0x00, 0x03,
          0x01, 0x02, 0x03, 0x04, 0x05, 0x06, 0x07, 0x08])) := by decide

/-- V11, row 1. -/
theorem test_hdr_decode :
    resultOf (exec .hdrDecode (given 0 (bytes [0x00, 0x01, 0x02, 0x03, 0x04, 0x05, 0x06, 0x07,
      0x08, 0x09, 0x0A, 0x0B, 0x0C, 0x0D, 0x0E, 0x0F])))
      = some (.ok (.fout
          { fw := 0x00, flags := 0x01, nchan := 515, schan := 1029, ant := 1543, snum := 579005069656919567 })) := by
  decide

/-- V11, row 4: fifteen bytes. -/
theorem test_hdr_decode_truncated :
    resultOf (exec .hdrDecode (given 0 (bytes (wire0.take 15)))) = some (.error (.truncatedPacket 16 15)) := by decide

/-! ## The sample serializer (V13, V14) -/

theorem test_pack_nibbles : resultOf (exec .packNibbles (given 0 (samples 2 [1, -2, -8, 7])))
    = some (.ok (.bout [0x1E, 0x87])) := by decide

/-- V13: out of range components are masked, in strict mode too. -/
theorem test_pack_nibbles_masks : resultOf (exec .packNibbles (given 0b11 (samples 1 [100, -100])))
    = some (.ok (.bout [0x4C])) := by decide

theorem test_unpack_nibbles :
    resultOf (exec .unpackNibbles (given 0 (bytes [0x1E, 0x87, 0x00, 0xFF, 0x78, 0x88, 0x7F, 0xF7])))
      = some (.ok (.sout (.pairs
          [(1, -2), (-8, 7), (0, 0), (-1, -1), (7, -8), (-8, -8), (7, -1), (-1, 7)]))) := by decide

theorem test_pack_bytes : resultOf (exec .packBytes (given 0 (samples 4 [0, 256, -1, -128])))
    = some (.ok (.bout [0x00, 0x00, 0xFF, 0x80])) := by decide

theorem test_pack_bytes_mismatch : resultOf (exec .packBytes (given 0 (samples 3 [1, 2])))
    = some (.error (.payloadLengthMismatch 3 3 2)) := by decide

theorem test_unpack_bytes : resultOf (exec .unpackBytes (given 0 (bytes [0x00, 0xC8, 0xFF, 0x80])))
    = some (.ok (.sout (.flat [0, 200, 255, 128]))) := by decide

/-! ## The packet framer (V16 to V19, P3) -/

/-- V16, row 7: every field wider than its register, one negative. -/
theorem test_from_fields_masks :
    ctxOf (exec (.fromFields .bits4 0b111111)
      (given 0 (fields 0x181 0x103 0x10000 0x10002 (-1) 0x10000000000000005 [])))
      = some (some
          { hdr := { fw := 0x81, flags := 0x03, nchan := 0, schan := 2, ant := 0xFFFF, snum := 5 },
            pay := [],
            mode := .bits4 }) := by decide

/-- V16, row 8: the expectation is that of the masked channel count. -/
theorem test_from_fields_mismatch :
    resultOf (exec (.fromFields .bits4 0b111111) (given 0 (fields 0x81 1 0x1FFFF 0 0 0 [])))
      = some (.error (.payloadLengthMismatch 2097120 4194240 0)) := by decide

/-- V17: the two trailing bytes are ignored with `CFG.SL = 0`. -/
theorem test_from_bytes_ignores_excess :
    ctxOf (exec (.fromBytes .bits4) (given 0 (bytes (wire0 ++ [0xAA, 0xBB])))) = some (some pkt0) := by decide

/-- V17: the same with `CFG.SL = 1`. -/
theorem test_from_bytes_excess_length :
    resultOf (exec (.fromBytes .bits4) (given 0b10 (bytes (wire0 ++ [0xAA, 0xBB]))))
      = some (.error (.excessLength 16 18)) := by decide

/-- R102, example. -/
theorem test_to_bytes : resultOf (exec .toBytes (holding pkt0 0 Ports.idle)) = some (.ok (.bout wire0)) := by decide

/-- V18, row 2: the samples are checked against the new count, and every byte is `11`. -/
theorem test_update_channels_and_samples :
    (ctxOf (exec (.update true 0b000100) (holding (pkt1 .bits4 0) 0 (fields 0 0 2 0 0 0 (List.replicate 128 1))))
      == some (some { pkt1 .bits4 0 with
        hdr := { (pkt1 .bits4 0).hdr with nchan := 2 }, pay := List.replicate 64 0x11 })) = true := by decide +kernel

/-- V18: `UPDATE schan=0x10000 ant=-1` in strict mode reports the lowest supplied field. -/
theorem test_update_lowest_field :
    resultOf (exec (.update false 0b011000) (holding pkt0 0b01 (fields 0 0 0 0x10000 (-1) 0 [])))
      = some (.error (.fieldOutOfRange 3 0x10000)) := by decide

/-- P5, steps 2 and 5, first byte `70`: the same byte in both modes. -/
theorem test_decoded_samples_w4 :
    resultOf (exec .decodedSamples (holding { pkt0 with pay := [0x70, 0x88] } 0 Ports.idle))
      = some (.ok (.sout (.pairs [(7, 0), (-8, -8)]))) := by decide

theorem test_decoded_samples_w8 :
    resultOf (exec .decodedSamples (holding { pkt0 with pay := [0x70, 0x88], mode := .bits8 } 0 Ports.idle))
      = some (.ok (.sout (.flat [112, 136]))) := by decide

/-- R105, example. -/
theorem test_read_fields : resultOf (exec .readFields (holding pkt0 0 Ports.idle)) = some (.ok (.fout hdr0)) := by decide

/-- V19. -/
theorem test_read_fields_not_constructed :
    (resultOf (exec .readFields State.reset)).map (fun r => r.status.code) = some 6 := by decide

/-! ## Control (V20) and steps -/

/-- V20, row 3: `sf=0 sl=1` is `0b10`. -/
theorem test_cfg_write :
    cfgOf (step ((given 0b01 Ports.idle).withFetchWord 16 0xC002)) = some 0b10 := by decide

theorem test_cfg_read : resultOf (exec .cfgRead (given 0b10 Ports.idle)) = some (.ok (.cout 0b10)) := by decide

/-- V20: the packet is gone after `RESET`. -/
theorem test_reset : ctxOf (exec .reset (holding pkt0 0b11 Ports.idle)) = some none := by decide

/-- V21: an illegal word changes nothing and names itself. -/
theorem test_step_illegal :
    (resultOf (step ((holding pkt0 0 Ports.idle).withFetchWord 16 0x9800)),
      ctxOf (step ((holding pkt0 0 Ports.idle).withFetchWord 16 0x9800)))
      = (some (.error (.illegalCommand 0x9800)), some (some pkt0)) := by decide

/-- V19: the first command after reset. -/
theorem test_step_first_after_reset :
    resultOf (step (State.reset.withFetchWord 16 0x8000)) = some (.error .notConstructed) := by decide

/-- V21 and R66: `UPDATE nchan= snum= samples=` is the word `0x9640`. -/
theorem test_call_word :
    (Call.update { FieldArgs.empty with nchan := some 1, snum := some 5 } (some [])).request.word = 0x9640 := by decide

/-- R66: the text of a call. -/
theorem test_call_text :
    (Call.fromBytes .bits4 [0x81, 0x0F]).text = "FROM_BYTES.w4 81 0F" := by decide

/-! ## Witnesses: a state and operands that meet the hypotheses of each statement with hypotheses -/

/-- EncodeOfDecode. -/
theorem witness_encode_of_decode : decode 0x9640 = .ok (.update true 0b100100) := by rfl

/-- IllegalWordsEndWithIllegalCommand: an illegal word at the head of the stream, and an incomplete mask. -/
theorem witness_illegal_word :
    ((State.reset.setStream [⟨0x0800, Ports.idle⟩]).stream = [⟨0x0800, Ports.idle⟩] ∧ checkWord 0x0800 ≠ none) ∧
      (0b111011 : BitVec 6) ≠ 0b111111 := by decide

/-- StepRunsTheDecodedCommand. -/
theorem witness_step_runs :
    (State.reset.setStream [⟨0x8000, Ports.idle⟩]).stream = [⟨0x8000, Ports.idle⟩] ∧ decode 0x8000 = .ok .toBytes :=
  ⟨rfl, rfl⟩

/-- IdleStepKeepsState, and ResetCommandReachesResetState's clause for a block already in reset state. -/
theorem witness_idle : State.reset.stream = [] ∧ State.reset.ctx = none ∧ State.reset.cfg = 0 := by decide

/-- HdrDecodeReadsFieldsBigEndian: both clauses at their boundary. -/
theorem witness_hdr_decode :
    16 ≤ (given 0 (bytes wire0)).ports.bin.length ∧ (given 0 (bytes (wire0.take 15))).ports.bin.length < 16 := by decide

/-- HeaderEncodeDecodeInverse: an encode that gives bytes, and a decode that gives a header. -/
theorem witness_header_inverse :
    resultOf (exec .hdrEncode (given 0 (header hdr0))) = some (.ok (.bout wire0)) ∧
      (given 0 (bytes wire0)).ports.bin = wire0 ∧
      resultOf (exec .hdrDecode (given 0 (bytes wire0))) = some (.ok (.fout hdr0)) ∧
      (given 0 (header hdr0)).ports.hin = hdr0 := by decide

/-- PackNibblesPacksPairs and NibbleComponentsReadBackModulo16: the right count, at zero too, and a wrong one; the
second's reading state. -/
theorem witness_pack_nibbles :
    (given 0 (samples 1 [100, -100])).ports.sin.length = 2 * (given 0 (samples 1 [100, -100])).ports.nin ∧
      (given 0 (samples 0 [])).ports.sin.length = 2 * (given 0 (samples 0 [])).ports.nin ∧
      (given 0 (samples 1 [1, 2, 3])).ports.sin.length ≠ 2 * (given 0 (samples 1 [1, 2, 3])).ports.nin ∧
      (given 0 (bytes [0x4C])).ports.bin = [0x4C] := by decide

/-- PackBytesMasksComponents: the right count and a wrong one. -/
theorem witness_pack_bytes :
    (given 0 (samples 1 [256])).ports.sin.length = (given 0 (samples 1 [256])).ports.nin ∧
      (given 0 (samples 1 [])).ports.sin.length ≠ (given 0 (samples 1 [])).ports.nin := by decide

/-- UnpackNibblesGivesSignedPairs and UnpackBytesGivesUnsignedComponents: a byte at an index. -/
theorem witness_unpack : (given 0 (bytes [0x80])).ports.bin[0]? = some 0x80 := by decide

/-- NibbleRoundTrip: both ways round, at both ends of the range. -/
theorem witness_nibble_round_trip :
    resultOf (exec .packNibbles (given 0 (samples 1 [-8, 7]))) = some (.ok (.bout [0x87])) ∧
      (given 0 (bytes [0x87])).ports.bin = [0x87] ∧
      (∀ v ∈ (given 0 (samples 1 [-8, 7])).ports.sin, -8 ≤ v ∧ v ≤ 7) ∧
      resultOf (exec .unpackNibbles (given 0 (bytes [0x87]))) = some (.ok (.sout (.pairs [(-8, 7)]))) ∧
      (given 0 (samples 1 [-8, 7])).ports.sin = flattenPairs [(-8, 7)] ∧
      (given 0 (samples 1 [-8, 7])).ports.nin = (given 0 (bytes [0x87])).ports.bin.length := by decide

/-- ByteRoundTrip: both ways round, at both ends of the range. -/
theorem witness_byte_round_trip :
    resultOf (exec .packBytes (given 0 (samples 2 [0, 255]))) = some (.ok (.bout [0x00, 0xFF])) ∧
      (given 0 (bytes [0x00, 0xFF])).ports.bin = [0x00, 0xFF] ∧
      (∀ v ∈ (given 0 (samples 2 [0, 255])).ports.sin, 0 ≤ v ∧ v ≤ 255) ∧
      resultOf (exec .unpackBytes (given 0 (bytes [0x00, 0xFF]))) = some (.ok (.sout (.flat [0, 255]))) ∧
      (given 0 (samples 2 [0, 255])).ports.sin = [0, 255] ∧
      (given 0 (samples 2 [0, 255])).ports.nin = (given 0 (bytes [0x00, 0xFF])).ports.bin.length := by decide

/-- HeaderAndSampleCommandsTouchNoState. -/
theorem witness_touch_no_state : (given 0 (bytes wire0)).ports = bytes wire0 ∧
    (holding pkt0 0b11 (bytes wire0)).ports = bytes wire0 := by decide

/-- The state of FromFieldsConstructs and OnlyChannelCountIsInterpreted: one channel, every sample given. -/
def oneChannel : State := given 0b01 (fields 0x81 1 1 0 0 0 (List.replicate 64 7))

/-- FromFieldsConstructs: strict, one channel; and no channel in legacy mode. -/
theorem witness_from_fields :
    (1 = (oneChannel.ports.fin.nchan % 65536).toNat ∧ fieldsAccepted 0b111111 oneChannel ∧
      oneChannel.ports.sin.length = components .bits4 (32 * 1) ∧ 32 * 1 ≤ oneChannel.cap) ∧
    (0 = ((given 0 (fields 0 0 0x10000 0 0 0 [])).ports.fin.nchan % 65536).toNat ∧
      fieldsAccepted 0b111111 (given 0 (fields 0 0 0x10000 0 0 0 []))) := by
  refine ⟨⟨by decide, ?_, by decide, by decide⟩, by decide, nofun⟩
  unfold fieldsAccepted fits
  decide

/-- FromFieldsFailsInOrder: a field missing; a lowest bad field in strict mode; a wrong count. -/
theorem witness_from_fields_fails :
    ((0b111011 : BitVec 6) ≠ 0b111111) ∧
    ((given 0b01 (fields 0x181 1 0x1FFFF 0 0 0 [])).sf = true ∧
      lowestBadField 0b111111 (given 0b01 (fields 0x181 1 0x1FFFF 0 0 0 [])).ports.fin 0) ∧
    (fieldsAccepted 0b111111 (given 0 (fields 0x81 1 2 0 0 0 [])) ∧
      64 = 32 * ((given 0 (fields 0x81 1 2 0 0 0 [])).ports.fin.nchan % 65536).toNat ∧
      (given 0 (fields 0x81 1 2 0 0 0 [])).ports.sin.length ≠ components .bits4 64) := by
  refine ⟨by decide, ⟨by decide, ?_⟩, ?_, by decide, by decide⟩
  · unfold lowestBadField fits
    decide
  · unfold fieldsAccepted fits
    decide

/-- FromBytesConstructs: with a trailing byte in legacy mode, and exactly long enough in strict mode. -/
theorem witness_from_bytes :
    (0 = 32 * wireField (given 0 (bytes (wire0 ++ [0xAA]))).ports.bin 2 ∧
      16 + 0 ≤ (given 0 (bytes (wire0 ++ [0xAA]))).ports.bin.length ∧ (given 0 (bytes (wire0 ++ [0xAA]))).sl = false) ∧
    (0 = 32 * wireField (given 0b10 (bytes wire0)).ports.bin 2 ∧
      (given 0b10 (bytes wire0)).ports.bin.length = 16 + 0 ∧ (given 0b10 (bytes wire0)).sl = true ∧
      0 ≤ (given 0b10 (bytes wire0)).cap) := by decide

/-- A header of one channel with 31 of its 32 payload bytes. -/
def short : List Byte := [0x81, 0x01, 0x00, 0x01, 0, 0, 0, 0, 0, 0, 0, 0, 0, 0, 0, 0] ++ List.replicate 31 0

/-- FromBytesFailsInOrder: shorter than a header; one byte short of the payload; one byte too long in strict mode. -/
theorem witness_from_bytes_fails :
    (given 0 (bytes (wire0.take 15))).ports.bin.length < 16 ∧
    (48 = 16 + 32 * wireField (given 0 (bytes short)).ports.bin 2 ∧ 16 ≤ (given 0 (bytes short)).ports.bin.length ∧
      (given 0 (bytes short)).ports.bin.length < 48) ∧
    (16 = 16 + 32 * wireField (given 0b10 (bytes (wire0 ++ [0xAA]))).ports.bin 2 ∧
      16 < (given 0b10 (bytes (wire0 ++ [0xAA]))).ports.bin.length ∧
      (given 0b10 (bytes (wire0 ++ [0xAA]))).sl = true) := by decide

/-- FromBytesReadsOnlyThePacket: two buffers that agree on the packet and differ behind it. -/
theorem witness_from_bytes_reads :
    (given 0 (bytes (wire0 ++ [0xAA]))).sl = false ∧ (given 0 (bytes (wire0 ++ [0xAA]))).cap = 2097120 ∧
      resultOf (exec (.fromBytes .bits4) (given 0 (bytes (wire0 ++ [0xAA])))) = some (.ok .none) ∧
      (given 0 (bytes wire0)).ports.bin.take (16 + 32 * wireField (wire0 ++ [0xAA]) 2)
        = (wire0 ++ [0xAA]).take (16 + 32 * wireField (wire0 ++ [0xAA]) 2) := by decide

/-- ToBytesGivesHeaderThenPayload, ReadFieldsGivesStoredHeader, DecodedSamplesReadsThePayload: a well-formed packet of
one channel in each mode, and no packet. -/
theorem witness_packet :
    ((holding (pkt1 .bits4 0x1E) 0 Ports.idle).ctx = some (pkt1 .bits4 0x1E) ∧
      (holding (pkt1 .bits4 0x1E) 0 Ports.idle).wf = true ∧ (pkt1 .bits4 0x1E).mode = .bits4 ∧
      0 < (pkt1 .bits4 0x1E).hdr.nchan.toNat ∧ (pkt1 .bits4 0x1E).pay[31]? = some 0x1E) ∧
    ((holding (pkt1 .bits8 0x1E) 0 Ports.idle).wf = true ∧ (pkt1 .bits8 0x1E).mode = .bits8) ∧
    State.reset.ctx = none := by decide

/-- UpdateFieldsKeepsTheRest: strict, `snum` at its greatest value. -/
theorem witness_update_fields :
    (holding pkt0 0b01 (fields 0 0 0 0 0 0xFFFFFFFFFFFFFFFF [])).ctx = some pkt0 ∧
      fieldsAccepted 0b100000 (holding pkt0 0b01 (fields 0 0 0 0 0 0xFFFFFFFFFFFFFFFF [])) ∧
      pkt0.pay.length = 32 * newChannels 0b100000 (fields 0 0 0 0 0 0xFFFFFFFFFFFFFFFF []).fin pkt0.hdr := by
  refine ⟨rfl, ?_, by decide⟩
  unfold fieldsAccepted fits
  decide

/-- UpdateSamplesRepacksPayload: a new channel count with the samples for it. -/
theorem witness_update_samples :
    fieldsAccepted 0b000100 (holding pkt0 0 (fields 0 0 1 0 0 0 (List.replicate 64 7))) ∧
      32 = 32 * newChannels 0b000100 (fields 0 0 1 0 0 0 (List.replicate 64 7)).fin pkt0.hdr ∧
      (fields 0 0 1 0 0 0 (List.replicate 64 7)).sin.length = components pkt0.mode 32 ∧
      32 ≤ (holding pkt0 0 (fields 0 0 1 0 0 0 (List.replicate 64 7))).cap :=
  ⟨nofun, by decide, by decide, by decide⟩

/-- UpdateFailsInOrder: no packet; a lowest bad field (V18); a changed channel count without samples; a wrong sample
count. -/
theorem witness_update_fails :
    State.reset.ctx = none ∧
    lowestBadField 0b011000 (fields 0 0 0 0x10000 (-1) 0 []).fin 3 ∧
    (fieldsAccepted 0b000100 (holding pkt0 0 (fields 0 0 1 0 0 0 [])) ∧
      32 = 32 * newChannels 0b000100 (fields 0 0 1 0 0 0 []).fin pkt0.hdr ∧ pkt0.pay.length ≠ 32 ∧
      (fields 0 0 1 0 0 0 []).sin.length ≠ components pkt0.mode 32) := by
  refine ⟨rfl, ?_, nofun, by decide, by decide, by decide⟩
  unfold lowestBadField fits
  decide

/-- UpdateIsIdempotent, UpdateFrame: an update that ends `OK` and one that fails. -/
theorem witness_update_next :
    resultOf (exec (.update false 0b100000) (holding pkt0 0 (fields 0 0 0 0 0 16 []))) = some (.ok .none) ∧
      resultOf (exec (.update false 0b000100) (holding pkt0 0 (fields 0 0 1 0 0 0 [])))
        = some (.error (.payloadLengthMismatch 32 64 0)) := by decide

/-- PacketRoundTrip: a construction from fields, its bytes, and a construction from them. -/
theorem witness_round_trip :
    ctxOf (exec (.fromFields .bits4 0b111111) (given 0 (fields 0x81 3 0 2 0 0xDEADBEEF []))) = some (some pkt0) ∧
      resultOf (exec .toBytes (holding pkt0 0 Ports.idle)) = some (.ok (.bout wire0)) ∧
      (given 0b10 (bytes wire0)).ports.bin = wire0 ∧
      (given 0 Ports.idle).cap ≤ (given 0b10 (bytes wire0)).cap ∧
      ctxOf (exec (.fromBytes .bits4) (given 0b10 (bytes wire0))) = some (some pkt0) := by decide

/-- PayloadSizeFollowsChannels, ConstructedFlagRules, ModeComesFromConstructionOnly: a command of each kind ends `OK`. -/
theorem witness_constructions :
    resultOf (exec (.fromFields .bits4 0b111111) (given 0 (fields 0 0 0 0 0 0 []))) = some (.ok .none) ∧
      resultOf (exec (.fromBytes .bits8) (given 0 (bytes wire0))) = some (.ok .none) ∧
      resultOf (exec (.update true 0) (holding pkt0 0 Ports.idle)) = some (.ok .none) ∧
      resultOf (exec .reset (holding pkt0 0 Ports.idle)) = some (.ok .none) ∧ State.reset.con = false := by decide

/-- RefusedOnlyBeyondCapacity: a capacity of 31 bytes refuses the packet of one channel, a larger one does not, and the
default; and an `UPDATE` without samples on a payload beyond the capacity goes on (log entry 10). -/
theorem witness_capacity :
    refusalOf (exec (.fromFields .bits4 0b111111) { oneChannel with cap := 31 }) = some (.payloadCapacity 32 31) ∧
      resultOf (exec (.fromFields .bits4 0b111111) { oneChannel with cap := 32 }) = some (.ok .none) ∧
      State.reset.cap = 2097120 ∧
      resultOf (exec (.update false 0) { holding (pkt1 .bits4 0) 0 Ports.idle with cap := 31 }) = some (.ok .none) := by
  decide

/-- ErrorStatusesAreThoseOfTheTable, LegacyErrorsAreTheThreeOfTheSource, ErrorsWriteNoState: a failed construction and a
failed update. -/
theorem witness_errors :
    resultOf (exec (.fromBytes .bits4) (holding pkt0 0 Ports.idle)) = some (.error (.truncatedPacket 16 0)) ∧
      resultOf (exec (.update false 0) State.reset) = some (.error .notConstructed) ∧
      (holding pkt0 0 Ports.idle).cfg = 0 := by decide

/-- ErrorStatusesAreThoseOfTheTable, the other way: a cell whose condition holds. -/
theorem witness_status_cell : StatusCell .hdrDecode State.reset .truncatedPacket := by
  show State.reset.ports.bin.length < 16
  decide

/-- CommandsWriteOnlyTheirState, ResultsDependOnStateAndOperandsOnly: a command that writes neither the context nor CFG,
one that writes the context, a refusal, and an `UPDATE` that keeps a packet and writes one field. -/
theorem witness_writes :
    resultOf (exec .cfgRead State.reset) = some (.ok (.cout 0)) ∧ writes .cfgRead = Writes.none ∧
      resultOf (exec (.fromFields .bits4 0b111111) oneChannel) = some (.ok .none) ∧
      refusalOf (exec (.fromFields .bits4 0b111111) { oneChannel with cap := 31 }) = some (.payloadCapacity 32 31) ∧
      ctxOf (exec (.update false 0b100000) (holding pkt0 0 (fields 0 0 0 0 0 16 [])))
        = some (some { pkt0 with hdr := { hdr0 with snum := 16 } }) := by
  decide

/-- OnlyChannelCountIsInterpreted: operands that agree in the channel count only, in legacy and in strict mode; two
headers, and two buffers, that agree in it only. -/
theorem witness_only_channels :
    ((fields 0 2 0 3 4 5 []).fin.nchan = (given 0 (fields 0x181 1 0 0 0 0 [])).ports.fin.nchan ∧
      resultOf (exec (.fromFields .bits4 0b111111) (given 0 (fields 0x181 1 0 0 0 0 []))) = some (.ok .none)) ∧
    (fieldsAccepted 0b100000 (holding pkt0 0b01 (fields 0 0 0 0 0 7 [])) ∧
      fieldsAccepted 0b100000 (holding { pkt0 with hdr := { hdr0 with fw := 0 } } 0b01 (fields 0 0 0 0 0 8 [])) ∧
      { hdr0 with fw := 0 }.nchan = pkt0.hdr.nchan ∧
      resultOf (exec (.update false 0b100000) (holding pkt0 0b01 (fields 0 0 0 0 0 7 []))) = some (.ok .none)) ∧
    ((0x00 :: wire0.tail).length = (given 0 (bytes wire0)).ports.bin.length ∧
      (∀ k, (k = 2 ∨ k = 3 ∨ 16 ≤ k) → (0x00 :: wire0.tail)[k]? = (given 0 (bytes wire0)).ports.bin[k]?) ∧
      resultOf (exec (.fromBytes .bits4) (given 0 (bytes wire0))) = some (.ok .none)) := by
  refine ⟨by decide, ⟨?_, ?_, by decide, by decide⟩, by decide, ?_, by decide⟩
  · unfold fieldsAccepted fits
    decide
  · unfold fieldsAccepted fits
    decide
  · rintro (_ | k) hk
    · omega
    · rfl

/-- BigEndianWriteThenRead: a write that ends at the last byte, of the greatest value; a byte before it and, for a
shorter write, one behind. -/
theorem witness_big_endian :
    (14 + 2 ≤ wire0.length ∧ 0xFFFF < 256 ^ 2 ∧ 13 < 14) ∧ (0 + 1 ≤ wire0.length ∧ 255 < 256 ^ 1 ∧ 0 + 1 ≤ 1) := by
  decide

/-- PayloadIndexIsTheNestedOrder: the last sample of a channel and the first of the next (V15). -/
theorem witness_payload_index :
    sampleIndex 0 15 1 = 31 ∧ sampleCoord 31 = (0, 15, 1) ∧ sampleIndex 1 0 0 = 32 ∧ sampleCoord 32 = (1, 0, 0) := by
  decide

/-- CallRequestCarriesItsOperands: an operand written and one left out. -/
theorem witness_call :
    (FieldArgs.only 5 7).get 5 = some 7 ∧ (FieldArgs.only 5 7).get 4 = none := by decide

/-- NextFrameAdvancesSampleNumber. -/
theorem witness_next_frame :
    (holding pkt0 0 Ports.idle).ctx = some pkt0 ∧ (holding pkt0 0 Ports.idle).wf = true ∧
      (holding pkt0 0 Ports.idle).sf = false ∧
      ((holding pkt0 0 Ports.idle).setStream [(nextFrame hdr0).request]).stream = [(nextFrame pkt0.hdr).request] := by
  decide

/-- InstancesShareNothing: a step of the second of two instances. -/
theorem witness_instances :
    stepInstance 1 [holding pkt0 0 Ports.idle, State.reset] = .next [holding pkt0 0 Ports.idle, State.reset] ∧
      [holding pkt0 0 Ports.idle, State.reset][1]? = some State.reset := ⟨rfl, rfl⟩

/-- StepKeepsPayloadInvariant, ResetMeetsPayloadInvariant: a well-formed state with a packet, and its step. -/
theorem witness_invariant :
    (holding (pkt1 .bits4 0) 0 Ports.idle).payloadMatches = true ∧ (holding (pkt1 .bits4 0) 0 Ports.idle).wf = true ∧
      (holding (pkt1 .bits4 0) 0 Ports.idle).ctx = some (pkt1 .bits4 0) ∧
      resultOf (step ((holding (pkt1 .bits4 0) 0 Ports.idle).withFetchWord 16 0xB000))
        = some (.ok (.fout (pkt1 .bits4 0).hdr)) := by decide

end Sys2Proof.Tests
end

section
/-!
PROOFS. The family 00_scope.md: a step is `exec` of the decoded command (R6, R41), and `numChannels` is the one header field
the block computes with (R9, R12). For the latter, `SamePayload` relates two packet computations that agree in everything
but the header; each packet computation is shown to keep it, and so is each way of ending a command.
-/

namespace Sys2Proof.Machine

/-! Accepted field operands (R55, R103) -/

/-- R55: no field is out of range exactly when every supplied value fits its register. -/
theorem firstOutOfRange_eq_none_iff (fm : BitVec 6) (v : FieldValues) :
    firstOutOfRange fm v = none ↔ ∀ i, supplied fm i = true → fits i (v.get i) := by
  have hall : ∀ i : Fin 6, i ∈ ([0, 1, 2, 3, 4, 5] : List (Fin 6)) := by decide
  simp [firstOutOfRange, List.find?_eq_none, hall, inWidth, fits]

/-- R55, R103: accepted operands are stored, in either setting of `CFG.SF`. -/
theorem reduceFields_accepted {fm : BitVec 6} {s : State} (ha : fieldsAccepted fm s) (h : Header) :
    reduceFields s.sf fm s.ports.fin h = .ok (supplyFields fm s.ports.fin h) := by
  unfold reduceFields
  split
  · rename_i hsf
    rw [(firstOutOfRange_eq_none_iff fm s.ports.fin).mpr (ha hsf)]
  · rfl

/-- R3, R103: the payload bytes of a header with new fields depend on the channel counts alone. -/
theorem supplyFields_expBytes_congr {v v' : FieldValues} {h h' : Header} (fm : BitVec 6)
    (hv : v'.nchan = v.nchan) (hh : h'.nchan = h.nchan) :
    (supplyFields fm v' h').expBytes = (supplyFields fm v h).expBytes := by
  simp [supplyFields, FieldValues.masked, Header.expBytes, hv, hh]

/-! Agreement in everything but the header -/

/-- Two packet computations fail alike, or give packets with one payload and one mode, whatever the headers. -/
inductive SamePayload : Except Error Packet → Except Error Packet → Prop where
  | ok {p p' : Packet} (hpay : p'.pay = p.pay) (hmode : p'.mode = p.mode) : SamePayload (.ok p) (.ok p')
  | error (e : Error) : SamePayload (.error e) (.error e)

/-- Two states show one result, and hold one payload and one mode, whatever the headers. -/
def SameButHeader (t u : State) : Prop :=
  u.result = t.result ∧ u.ctx.map Packet.pay = t.ctx.map Packet.pay ∧ u.ctx.map Packet.mode = t.ctx.map Packet.mode

/-- R100: a field construction uses the channel count only. -/
theorem packetOfFields_samePayload {s s' : State} (w8 : Mode) (fm : BitVec 6) (samples : List Int)
    (hv : s'.ports.fin.nchan = s.ports.fin.nchan) (ha : fieldsAccepted fm s) (ha' : fieldsAccepted fm s') :
    SamePayload (packetOfFields s.sf w8 fm s.ports.fin samples)
      (packetOfFields s'.sf w8 fm s'.ports.fin samples) := by
  have hm : s'.ports.fin.masked.nchan = s.ports.fin.masked.nchan := congrArg (mask 16) hv
  unfold packetOfFields
  rw [reduceFields_accepted ha, reduceFields_accepted ha']
  dsimp only
  rw [supplyFields_expBytes_congr fm hv hm]
  split
  · cases pack w8 samples (supplyFields fm s.ports.fin s.ports.fin.masked).expBytes with
    | ok pay => exact .ok rfl rfl
    | error e => exact .error e
  · exact .error _

/-- R103: an update uses the channel counts only, of the operands and of the header it starts from. -/
theorem updatedPacket_samePayload {s s' : State} {p p' : Packet} (smp : Bool) (fm : BitVec 6) (samples : List Int)
    (hv : s'.ports.fin.nchan = s.ports.fin.nchan) (hh : p'.hdr.nchan = p.hdr.nchan)
    (hpay : p'.pay = p.pay) (hmode : p'.mode = p.mode)
    (ha : fieldsAccepted fm s) (ha' : fieldsAccepted fm s') :
    SamePayload (updatedPacket s.sf smp fm s.ports.fin samples p)
      (updatedPacket s'.sf smp fm s'.ports.fin samples p') := by
  unfold updatedPacket
  rw [reduceFields_accepted ha, reduceFields_accepted ha']
  dsimp only
  rw [supplyFields_expBytes_congr fm hv hh, hpay, hmode]
  split
  · cases pack p.mode samples (supplyFields fm s.ports.fin p.hdr).expBytes with
    | ok pay => exact .ok rfl rfl
    | error e => exact .error e
  · split
    · exact .ok rfl rfl
    · exact .error _

/-- R54: a read of `n` bytes at `a` depends on those bytes alone. -/
theorem memRead_congr {bytes bytes' : List Byte} {a n : Nat}
    (h : ∀ k, a ≤ k → k < a + n → bytes'[k]? = bytes[k]?) : memRead bytes' a n = memRead bytes a n := by
  unfold memRead
  congr 1
  apply List.ext_getElem?
  intro k
  rw [List.getElem?_take, List.getElem?_take, List.getElem?_drop, List.getElem?_drop]
  split
  · exact h (a + k) (by omega) (by omega)
  · rfl

/-- R101: a parse uses the length of the buffer, its channel count (bytes 2 and 3) and what follows the header. -/
theorem packetOfBytes_samePayload {bytes bytes' : List Byte} (strict : Bool) (w8 : Mode)
    (hlen : bytes'.length = bytes.length) (hnchan : memRead bytes' 2 2 = memRead bytes 2 2)
    (hrest : bytes'.drop Config.headerBytes = bytes.drop Config.headerBytes) :
    SamePayload (packetOfBytes strict w8 bytes) (packetOfBytes strict w8 bytes') := by
  have hexp : (decodeHeader bytes').expBytes = (decodeHeader bytes).expBytes := by
    simp only [decodeHeader, Header.expBytes, hnchan]
  unfold packetOfBytes hdrDecode
  rw [hlen]
  by_cases hshort : bytes.length < Config.headerBytes
  · rw [if_pos hshort, if_pos hshort]
    exact .error _
  · rw [if_neg hshort, if_neg hshort]
    dsimp only
    rw [hexp, hrest]
    split
    · exact .error _
    · split
      · exact .error _
      · exact .ok rfl rfl

/-! Ending a command keeps the agreement -/

/-- R114: whether a packet is stored depends on its payload, not on its header. -/
theorem storePacket_sameButHeader {p p' : Packet} {s s' t : State} (hpay : p'.pay = p.pay)
    (hmode : p'.mode = p.mode) (hcap : s'.cap = s.cap) (h : storePacket p s = .next t) :
    ∃ u, storePacket p' s' = .next u ∧ SameButHeader t u := by
  obtain ⟨hfit, rfl⟩ := storePacket_next h
  have hfit' : p'.pay.length ≤ s'.cap := by rw [hpay, hcap]; exact hfit
  exact ⟨_, storePacket_fits hfit', rfl, congrArg some hpay, congrArg some hmode⟩

/-- R100, R101, R147: constructions from agreeing computations end alike. -/
theorem construct_sameButHeader {r r' : Except Error Packet} {s s' t : State} (h : construct r s = .next t)
    (hr : SamePayload r r') (hcap : s'.cap = s.cap) :
    ∃ u, construct r' s' = .next u ∧ SameButHeader t u := by
  cases hr with
  | ok hpay hmode => exact storePacket_sameButHeader hpay hmode hcap h
  | error e =>
    cases h
    exact ⟨_, rfl, rfl, rfl, rfl⟩

/-- R103: updates of packets that agree in all but the header end alike when the updated packets agree. -/
theorem execUpdate_sameButHeader {smp : Bool} {fm : BitVec 6} {s s' t : State} {p p' : Packet}
    (hp : s.ctx = some p) (hp' : s'.ctx = some p') (hpay : p'.pay = p.pay) (hmode : p'.mode = p.mode)
    (hcap : s'.cap = s.cap)
    (hr : SamePayload (updatedPacket s.sf smp fm s.ports.fin s.ports.sin p)
      (updatedPacket s'.sf smp fm s'.ports.fin s'.ports.sin p'))
    (h : execUpdate smp fm s = .next t) :
    ∃ u, execUpdate smp fm s' = .next u ∧ SameButHeader t u := by
  rw [execUpdate, withPacket_some hp] at h
  rw [execUpdate, withPacket_some hp']
  generalize updatedPacket s.sf smp fm s.ports.fin s.ports.sin p = r at hr h
  generalize updatedPacket s'.sf smp fm s'.ports.fin s'.ports.sin p' = r' at hr
  cases hr with
  | error e =>
    cases h
    refine ⟨_, rfl, rfl, ?_, ?_⟩
    · simp [hp, hp', hpay]
    · simp [hp, hp', hmode]
  | ok hqpay hqmode =>
    cases smp with
    | true => exact storePacket_sameButHeader hqpay hqmode hcap h
    | false =>
      cases h
      exact ⟨_, rfl, rfl, congrArg some hqpay, congrArg some hqmode⟩

/-- R104: with a packet, `DECODED_SAMPLES` puts out its payload read in its mode. -/
theorem exec_decodedSamples_some {s : State} {p : Packet} (hp : s.ctx = some p) :
    exec .decodedSamples s = .next { s with result := some (.ok (.sout (unpack p.mode p.pay))) } :=
  withPacket_some hp _

/-! The obligations -/

/-- Settles O49: `FROM_FIELDS`, `UPDATE` and `FROM_BYTES` compute agreeing packets and end alike; `DECODED_SAMPLES` reads
payload and mode only. -/
theorem onlyChannelCountIsInterpreted : Obligations.OnlyChannelCountIsInterpreted := by
  refine ⟨?fromFields, ?update, ?fromBytes, ?decodedSamples⟩
  case fromFields =>
    rintro w8 fm s _ t v rfl hv ha ha' h
    exact construct_sameButHeader h (packetOfFields_samePayload w8 fm s.ports.sin hv ha ha') rfl
  case update =>
    rintro smp fm s _ t v p h hp rfl hh hv ha ha' hex
    exact execUpdate_sameButHeader hp rfl rfl rfl rfl
      (updatedPacket_samePayload smp fm s.ports.sin hv hh rfl rfl ha ha') hex
  case fromBytes =>
    rintro w8 s _ t bytes rfl hlen hsame h
    have hnchan : memRead bytes 2 2 = memRead s.ports.bin 2 2 :=
      memRead_congr fun k _ _ => hsame k (by omega)
    have hrest : bytes.drop Config.headerBytes = s.ports.bin.drop Config.headerBytes := by
      apply List.ext_getElem?
      intro k
      rw [List.getElem?_drop, List.getElem?_drop]
      exact hsame _ (.inr (.inr (Nat.le_add_right 16 k)))
    exact construct_sameButHeader h (packetOfBytes_samePayload s.sl w8 hlen hnchan hrest) rfl
  case decodedSamples =>
    intro s p h hp
    exact ⟨_, exec_decodedSamples_some hp, exec_decodedSamples_some (p := { p with hdr := h }) rfl⟩

/-- Settles O7: of the cases of a step, a stream with a word that decodes leaves only the decoded command. -/
theorem stepRunsTheDecodedCommand : Obligations.StepRunsTheDecodedCommand := by
  intro s r rest i hs hd
  obtain ⟨hnil, _⟩ | ⟨r', rest', hs', hcases⟩ := step_cases s
  · cases hs.symm.trans hnil
  · cases hs.symm.trans hs'
    obtain ⟨i', hd', hstep⟩ | ⟨e, hd', _⟩ := hcases
    · cases hd.symm.trans hd'
      exact hstep
    · cases hd.symm.trans hd'

end Sys2Proof.Machine
end

section
/-!
PROOFS. The family 10_state.md: what a command may do to the block's state (R13, R15, R16, R22) and what it keeps
(R18, R154). `CommandEffect` lists once everything a command can answer with a next state; the invariant and the frames
are read off its cases. That an answer does not depend on the host's stream and the last result goes by the ways a
command can end.
-/

namespace Sys2Proof.Machine

/-! The context (R15, R18, R23) -/

/-- R15, R23: `CON` is 0 exactly where there is no packet. -/
theorem State.con_eq_false_iff (s : State) : s.con = false ↔ s.ctx = none :=
  Option.isSome_eq_false_iff.trans Option.isNone_iff_eq_none

/-- R18: with a packet, the invariant is the well-formedness of its payload. -/
theorem State.payloadMatches_some {s : State} {p : Packet} (hp : s.ctx = some p) :
    s.payloadMatches = Memory.wf p.hdr p.pay := by
  simp only [State.payloadMatches, hp]

/-- R10: the payload of a packet, where there is one, fits the capacity. -/
def State.payloadFits (s : State) : Prop := ∀ p, s.ctx = some p → p.pay.length ≤ s.cap

/-- R10, R18: the full invariant is R18's with R10's bound. -/
theorem State.wf_iff (s : State) : s.wf = true ↔ s.payloadMatches = true ∧ s.payloadFits := by
  unfold State.wf State.payloadMatches State.payloadFits
  cases s.ctx with
  | none => simp
  | some p => simp [Packet.wf]

/-- R18: the invariant speaks of the context only. -/
theorem State.payloadMatches_congr {s s' : State} (hctx : s'.ctx = s.ctx) (hs : s.payloadMatches = true) :
    s'.payloadMatches = true := by
  simpa only [State.payloadMatches, hctx] using hs

/-- R10: the bound speaks of the context and the capacity only. -/
theorem State.payloadFits_congr {s s' : State} (hctx : s'.ctx = s.ctx) (hcap : s'.cap = s.cap) (hs : s.payloadFits) :
    s'.payloadFits := by
  simpa only [State.payloadFits, hctx, hcap] using hs

/-! What the packet computations take over (R16, R103) -/

/-- R16, R100: a field construction takes the mode of `w8`. -/
theorem packetOfFields_mode {strict : Bool} {w8 : Mode} {fm : BitVec 6} {v : FieldValues} {samples : List Int}
    {p : Packet} (h : packetOfFields strict w8 fm v samples = .ok p) : p.mode = w8 := by
  unfold packetOfFields at h
  split at h
  · split at h
    · cases h
    · split at h
      · cases h
      · cases h; rfl
  · cases h

/-- R16, R101: a parse takes the mode of `w8`. -/
theorem packetOfBytes_mode {strict : Bool} {w8 : Mode} {bytes : List Byte} {p : Packet}
    (h : packetOfBytes strict w8 bytes = .ok p) : p.mode = w8 := by
  unfold packetOfBytes at h
  split at h
  · cases h
  · dsimp only at h
    split at h
    · cases h
    · split at h
      · cases h
      · cases h; rfl

/-- R55: reduced operands that are accepted are the supplied fields over the old header. -/
theorem reduceFields_ok {strict : Bool} {fm : BitVec 6} {v : FieldValues} {h h' : Header}
    (hr : reduceFields strict fm v h = .ok h') : h' = supplyFields fm v h := by
  unfold reduceFields at hr
  split at hr
  · split at hr
    · cases hr
    · cases hr; rfl
  · cases hr; rfl

/-- R103: "unsupplied fields keep prior value". -/
theorem supplyFields_get_of_not_supplied {fm : BitVec 6} {j : Fin 6} (v : FieldValues) (h : Header)
    (hj : supplied fm j = false) : (supplyFields fm v h).get j = h.get j := by
  fin_cases j <;> exact congrArg BitVec.toNat (if_neg (Bool.eq_false_iff.mp hj))

/-- R103: the header of an updated packet is the old one with the supplied fields replaced. -/
theorem updatedPacket_hdr {strict smp : Bool} {fm : BitVec 6} {v : FieldValues} {samples : List Int} {p q : Packet}
    (h : updatedPacket strict smp fm v samples p = .ok q) : q.hdr = supplyFields fm v p.hdr := by
  unfold updatedPacket at h
  split at h
  · cases h
  · rename_i hr
    rw [← reduceFields_ok hr]
    split at h
    · split at h
      · cases h
      · cases h; rfl
    · split at h
      · cases h; rfl
      · cases h

/-! Everything a command can do -/

/-- What command `i` can leave of state `s` when it answers a next state: the rows of R13, with R146 and R147 for the
commands that fail. -/
inductive CommandEffect (s : State) : Instr → State → Prop where
  /-- R146 and the rows of R13 without a "w": the result ports alone change. -/
  | kept {i : Instr} (hconstructs : constructs i = false) (hreset : i ≠ .reset) (r : Result) :
    CommandEffect s i { s with result := some r }
  /-- R100: `FROM_FIELDS` ends `OK`. -/
  | built {w8 : Mode} {fm : BitVec 6} {p : Packet}
    (hp : packetOfFields s.sf w8 fm s.ports.fin s.ports.sin = .ok p) (hfit : p.pay.length ≤ s.cap) :
    CommandEffect s (.fromFields w8 fm) { s with ctx := some p, result := some (.ok .none) }
  /-- R101: `FROM_BYTES` ends `OK`. -/
  | parsed {w8 : Mode} {p : Packet} (hp : packetOfBytes s.sl w8 s.ports.bin = .ok p) (hfit : p.pay.length ≤ s.cap) :
    CommandEffect s (.fromBytes w8) { s with ctx := some p, result := some (.ok .none) }
  /-- R147: a construction fails. -/
  | constructionFailed {i : Instr} (hconstructs : constructs i = true) (e : Error) :
    CommandEffect s i { s with ctx := none, result := some (.error e) }
  /-- R103: `UPDATE` ends `OK`. -/
  | updated {smp : Bool} {fm : BitVec 6} {p q : Packet} (hp : s.ctx = some p)
    (hq : updatedPacket s.sf smp fm s.ports.fin s.ports.sin p = .ok q) (hfit : smp = true → q.pay.length ≤ s.cap) :
    CommandEffect s (.update smp fm) { s with ctx := some q, result := some (.ok .none) }
  /-- R130. -/
  | configured (cfg : BitVec 2) : CommandEffect s (.cfgWrite cfg) { s with cfg := cfg, result := some (.ok .none) }
  /-- R132. -/
  | cleared : CommandEffect s .reset { s with ctx := none, cfg := 0, result := some (.ok .none) }

/-- R102, R104, R105: a command that only reads the packet ends with its one result. -/
theorem withPacket_complete_eq (out : Packet → Output) (s : State) :
    ∃ res, withPacket s (fun p => complete (out p) s) = .next { s with result := some res } := by
  obtain hp | ⟨p, hp⟩ := s.ctx_cases
  · exact ⟨_, withPacket_none hp _⟩
  · exact ⟨_, withPacket_some hp _⟩

/-- A command known to change the result ports alone has that effect. -/
theorem CommandEffect.of_keeps {i : Instr} {s t : State} (hconstructs : constructs i = false) (hreset : i ≠ .reset)
    (hkeeps : ∃ r, exec i s = .next { s with result := some r }) (h : exec i s = .next t) : CommandEffect s i t := by
  obtain ⟨r, hr⟩ := hkeeps
  cases hr.symm.trans h
  exact .kept hconstructs hreset r

/-- Everything a command can answer with a next state. -/
theorem exec_effect {i : Instr} {s t : State} (h : exec i s = .next t) : CommandEffect s i t := by
  cases i with
  | hdrEncode | unpackNibbles | unpackBytes | cfgRead => exact .of_keeps rfl nofun ⟨_, rfl⟩ h
  | hdrDecode | packNibbles | packBytes => exact .of_keeps rfl nofun (finish_eq _ s) h
  | toBytes | decodedSamples | readFields => exact .of_keeps rfl nofun (withPacket_complete_eq _ s) h
  | fromFields w8 fm =>
    obtain ⟨p, hp, hfit, rfl⟩ | ⟨e, _, rfl⟩ := construct_next h
    · exact .built hp hfit
    · exact .constructionFailed rfl e
  | fromBytes w8 =>
    obtain ⟨p, hp, hfit, rfl⟩ | ⟨e, _, rfl⟩ := construct_next h
    · exact .parsed hp hfit
    · exact .constructionFailed rfl e
  | update smp fm =>
    obtain ⟨_, rfl⟩ | ⟨p, hp, ⟨e, _, rfl⟩ | ⟨q, hq, hfit, rfl⟩⟩ := execUpdate_next h
    · exact .kept (i := .update smp fm) rfl nofun _
    · exact .kept (i := .update smp fm) rfl nofun _
    · exact .updated hp hq hfit
  | cfgWrite cfg => cases h; exact .configured cfg
  | reset => cases h; exact .cleared

/-- R15: without a packet the four commands that need one end with `NotConstructed`. -/
theorem exec_notConstructed {s : State} {smp : Bool} {fm : BitVec 6} {i : Instr} (hctx : s.ctx = none)
    (hi : i ∈ [.toBytes, .update smp fm, .decodedSamples, .readFields]) :
    exec i s = .next { s with result := some (.error .notConstructed) } := by
  simp only [List.mem_cons, List.not_mem_nil, or_false] at hi
  obtain rfl | rfl | rfl | rfl := hi
  all_goals exact withPacket_none hctx _

/-! The payload invariant (R18) -/

/-- R18: "the three that write `HDR.nchan` or `PAY` check it before they write". -/
theorem exec_keeps_payloadMatches {i : Instr} {s t : State} (h : exec i s = .next t) (hs : s.payloadMatches = true) :
    t.payloadMatches = true := by
  cases exec_effect h with
  | kept | configured => exact hs
  | built hp => exact packetOfFields_wf hp
  | parsed hp => exact packetOfBytes_wf hp
  | updated _ hq => exact updatedPacket_wf hq
  | constructionFailed | cleared => rfl

/-- R10, R114: a payload that is written fits, and an `UPDATE` without samples keeps the payload that fitted. -/
theorem exec_keeps_payloadFits {i : Instr} {s t : State} (h : exec i s = .next t) (hs : s.payloadFits) :
    t.payloadFits := by
  cases exec_effect h with
  | kept | configured => exact hs
  | built _ hfit | parsed _ hfit => rintro _ ⟨⟩; exact hfit
  | constructionFailed | cleared => exact nofun
  | @updated smp _ p _ hp hq hfit =>
    rintro _ ⟨⟩
    cases smp with
    | true => exact hfit rfl
    | false => rw [updatedPacket_keeps_pay hq]; exact hs p hp

/-- A step leaves context and capacity, or it is a command on a state with that context and capacity. -/
theorem step_next {s t : State} (h : step s = .next t) :
    (t.ctx = s.ctx ∧ t.cap = s.cap) ∨ ∃ i s₁, s₁.ctx = s.ctx ∧ s₁.cap = s.cap ∧ exec i s₁ = .next t := by
  obtain ⟨_, hidle⟩ | ⟨r, rest, _, ⟨i, _, hrun⟩ | ⟨⟨w⟩, _, hillegal⟩⟩ := step_cases s
  · cases hidle.symm.trans h
    exact .inl ⟨rfl, rfl⟩
  · exact .inr ⟨i, { s with ports := r.ports, stream := rest }, rfl, rfl, hrun.symm.trans h⟩
  · cases hillegal.symm.trans h
    exact .inl ⟨rfl, rfl⟩

/-- A property of context and capacity that every command keeps is kept by every step. -/
theorem step_keeps {P : State → Prop} {s t : State}
    (hcongr : ∀ {u u' : State}, u'.ctx = u.ctx → u'.cap = u.cap → P u → P u')
    (hexec : ∀ {i u u'}, exec i u = .next u' → P u → P u') (h : step s = .next t) (hs : P s) : P t := by
  obtain ⟨hctx, hcap⟩ | ⟨i, s₁, hctx, hcap, hrun⟩ := step_next h
  · exact hcongr hctx hcap hs
  · exact hexec hrun (hcongr hctx hcap hs)

/-! The frame of a command (R13) -/

/-- R13: a packet before and after a command agrees in every field register, the payload and the mode that the command's
row does not write. -/
theorem exec_packet_frame {i : Instr} {s t : State} {p q : Packet} (h : exec i s = .next t) (hp : s.ctx = some p)
    (hq : t.ctx = some q) :
    (∀ j, supplied (writes i).hdr j = false → q.hdr.get j = p.hdr.get j) ∧
      ((writes i).pay = false → q.pay = p.pay) ∧ ((writes i).mode = false → q.mode = p.mode) := by
  cases exec_effect h with
  | kept | configured =>
    cases hp.symm.trans hq
    exact ⟨fun _ _ => rfl, fun _ => rfl, fun _ => rfl⟩
  | built | parsed =>
    have hall : ∀ j : Fin 6, supplied 0b111111 j = true := by decide
    exact ⟨fun j hj => (nomatch (hall j).symm.trans hj), nofun, nofun⟩
  | constructionFailed | cleared => cases hq
  | updated hp' hupd =>
    cases hp.symm.trans hp'
    cases hq
    refine ⟨fun j hj => ?_, ?_, fun _ => updatedPacket_keeps_mode hupd⟩
    · rw [updatedPacket_hdr hupd]
      exact supplyFields_get_of_not_supplied _ _ hj
    · rintro rfl
      exact updatedPacket_keeps_pay hupd

/-- R13, R147: a command that constructs writes `CON`. -/
theorem writes_con_of_constructs {i : Instr} (h : constructs i = true) : (writes i).con = true := by
  cases i with
  | fromFields | fromBytes => rfl
  | _ => cases h

/-- R13, R15: `CON` stays as it is where the command's row does not write it. -/
theorem exec_con_frame {i : Instr} {s t : State} (h : exec i s = .next t) (hw : (writes i).con = false) :
    t.con = s.con := by
  cases exec_effect h with
  | kept | configured => rfl
  | built | parsed | cleared => cases hw
  | constructionFailed hconstructs => cases hw.symm.trans (writes_con_of_constructs hconstructs)
  | updated hp => exact (congrArg Option.isSome hp).symm

/-- R13, R19: `CFG` stays as it is where the command's row does not write it. -/
theorem exec_cfg_frame {i : Instr} {s t : State} (h : exec i s = .next t) (hw : (writes i).cfg = false) :
    t.cfg = s.cfg := by
  cases exec_effect h with
  | kept | built | parsed | constructionFailed | updated => rfl
  | configured | cleared => cases hw

/-- No command writes the capacity, the operand ports or the host's stream (log entries 4, 3 and 2). -/
theorem exec_interface_frame {i : Instr} {s t : State} (h : exec i s = .next t) :
    t.cap = s.cap ∧ t.ports = s.ports ∧ t.stream = s.stream := by
  cases exec_effect h <;> exact ⟨rfl, rfl, rfl⟩

/-- R16: where the packet after a command comes from: its mode is `w8` of a construction, or the mode of the packet
before. -/
theorem exec_mode {i : Instr} {s t : State} {q : Packet} (h : exec i s = .next t) (hq : t.ctx = some q) :
    (∀ w8 fm, i = .fromFields w8 fm → q.mode = w8) ∧ (∀ w8, i = .fromBytes w8 → q.mode = w8) ∧
      (constructs i = false → ∃ p, s.ctx = some p ∧ q.mode = p.mode) := by
  cases exec_effect h with
  | kept hconstructs =>
    refine ⟨?_, ?_, fun _ => ⟨q, hq, rfl⟩⟩
    · rintro w8 fm rfl; cases hconstructs
    · rintro w8 rfl; cases hconstructs
  | configured => exact ⟨nofun, nofun, fun _ => ⟨q, hq, rfl⟩⟩
  | built hp =>
    cases hq
    refine ⟨?_, nofun, nofun⟩
    rintro w8 fm ⟨⟩
    exact packetOfFields_mode hp
  | parsed hp =>
    cases hq
    refine ⟨nofun, ?_, nofun⟩
    rintro w8 ⟨⟩
    exact packetOfBytes_mode hp
  | updated hp hupd =>
    cases hq
    exact ⟨nofun, nofun, fun _ => ⟨_, hp, updatedPacket_keeps_mode hupd⟩⟩
  | constructionFailed | cleared => cases hq

/-- R141: no error is reported as `OK`. -/
theorem Error.status_ne_ok (e : Error) : e.status ≠ .ok := by cases e <;> exact nofun

/-- R15: what a command leaves in `CON`, by the result it ends with. -/
theorem exec_con {i : Instr} {s t : State} {r : Result} (h : exec i s = .next t) (hr : t.result = some r) :
    t.con = (if constructs i then decide (r.status = .ok) else if i = .reset then false else s.con) := by
  cases exec_effect h with
  | kept hconstructs hreset => rw [hconstructs, if_neg Bool.false_ne_true, if_neg hreset]; rfl
  | built | parsed | cleared => cases hr; rfl
  | constructionFailed hconstructs e =>
    cases hr
    rw [if_pos hconstructs]
    exact (decide_eq_false e.status_ne_ok).symm
  | updated hp => simp [State.con, constructs, hp]
  | configured => rfl

/-! The host's stream and the last result (R22) -/

/-- The state with another host's stream and another last result. -/
def State.withHost (s : State) (stream : List Request) (last : Option Result) : State :=
  { s with stream := stream, result := last }

@[simp] theorem State.withHost_sf (s : State) (stream : List Request) (last : Option Result) :
    (s.withHost stream last).sf = s.sf := rfl

@[simp] theorem State.withHost_ports (s : State) (stream : List Request) (last : Option Result) :
    (s.withHost stream last).ports = s.ports := rfl

/-- An answer with another host's stream; a fault and a refusal hold none. -/
def withStream (stream : List Request) : Answer → Answer
  | .next t => .next (t.setStream stream)
  | .fault f => .fault f
  | .refused r => .refused r

section
variable (s : State) (stream : List Request) (last : Option Result)

/-- R140, R146: ending a command replaces the last result. -/
theorem finish_withHost (r : Except Error Output) :
    finish r (s.withHost stream last) = withStream stream (finish r s) := by
  cases r <;> rfl

/-- R114: the capacity check reads neither. -/
theorem storePacket_withHost (p : Packet) :
    storePacket p (s.withHost stream last) = withStream stream (storePacket p s) := by
  by_cases hfit : p.pay.length ≤ s.cap
  · rw [storePacket_fits hfit, storePacket_fits (s := s.withHost stream last) hfit]; rfl
  · have hbig := Nat.not_le.mp hfit
    rw [storePacket_refuses hbig, storePacket_refuses (s := s.withHost stream last) hbig]; rfl

/-- R147: nor does the end of a construction. -/
theorem construct_withHost (r : Except Error Packet) :
    construct r (s.withHost stream last) = withStream stream (construct r s) := by
  cases r with
  | ok p => exact storePacket_withHost s stream last p
  | error e => rfl

/-- R15: a command that needs a packet reads neither, when what it does with the packet reads neither. -/
theorem withPacket_withHost {f f' : Packet → Answer} (hf : ∀ p, f' p = withStream stream (f p)) :
    withPacket (s.withHost stream last) f' = withStream stream (withPacket s f) := by
  obtain hp | ⟨p, hp⟩ := s.ctx_cases
  · rw [withPacket_none hp, withPacket_none (s := s.withHost stream last) hp]; rfl
  · rw [withPacket_some hp, withPacket_some (s := s.withHost stream last) hp]; exact hf p

/-- R103: `UPDATE` reads neither. -/
theorem execUpdate_withHost (smp : Bool) (fm : BitVec 6) :
    execUpdate smp fm (s.withHost stream last) = withStream stream (execUpdate smp fm s) := by
  refine withPacket_withHost s stream last fun p => ?_
  rw [State.withHost_sf, State.withHost_ports]
  cases updatedPacket s.sf smp fm s.ports.fin s.ports.sin p with
  | error e => rfl
  | ok q =>
    cases smp with
    | true => exact storePacket_withHost s stream last q
    | false => rfl

/-- R22: no command reads the host's stream or the last result. -/
theorem exec_withHost (i : Instr) :
    exec i (s.withHost stream last) = withStream stream (exec i s) := by
  cases i with
  | hdrEncode | unpackNibbles | unpackBytes | cfgWrite | cfgRead | reset => rfl
  | hdrDecode | packNibbles | packBytes => exact finish_withHost s stream last _
  | toBytes | decodedSamples | readFields => exact withPacket_withHost s stream last fun _ => rfl
  | fromFields | fromBytes => exact construct_withHost s stream last _
  | update smp fm => exact execUpdate_withHost s stream last smp fm

end

/-! Several instances (R10, R154) -/

/-- Everything a step of one of several instances can answer with a next system. -/
theorem stepInstance_next {k : Nat} {sys sys' : List State} (h : stepInstance k sys = .next sys') :
    (sys[k]? = none ∧ sys' = sys) ∨ ∃ s t, sys[k]? = some s ∧ step s = .next t ∧ sys' = sys.set k t := by
  unfold stepInstance at h
  split at h
  · rename_i hk
    cases h
    exact .inl ⟨hk, rfl⟩
  · rename_i s hk
    split at h
    · rename_i t ht
      cases h
      exact .inr ⟨s, t, hk, ht, rfl⟩
    · cases h
    · cases h

/-! The obligations -/

/-- Settles O55: both parts of the invariant are kept by every command, and so by every step. -/
theorem stepKeepsPayloadInvariant : Obligations.StepKeepsPayloadInvariant := by
  intro s t h
  have hmatches : s.payloadMatches = true → t.payloadMatches = true :=
    step_keeps (P := fun u => u.payloadMatches = true) (fun hctx _ => State.payloadMatches_congr hctx)
      exec_keeps_payloadMatches h
  have hfits : s.payloadFits → t.payloadFits :=
    step_keeps (P := State.payloadFits) State.payloadFits_congr exec_keeps_payloadFits h
  refine ⟨hmatches, fun hs => ?_⟩
  obtain ⟨hm, hf⟩ := (State.wf_iff s).mp hs
  exact (State.wf_iff t).mpr ⟨hmatches hm, hfits hf⟩

/-- Settles O44: the frames of the columns of R13, read off the effects of the commands. -/
theorem commandsWriteOnlyTheirState : Obligations.CommandsWriteOnlyTheirState := fun _ _ _ h =>
  ⟨exec_con_frame h, exec_cfg_frame h, fun _ _ hp hq => exec_packet_frame h hp hq, exec_interface_frame h⟩

/-- Settles O46: on another stream and last result a command's answer is the same answer, with that stream. -/
theorem resultsDependOnStateAndOperandsOnly : Obligations.ResultsDependOnStateAndOperandsOnly := by
  intro i s stream last
  have hsame := exec_withHost s stream last i
  exact ⟨fun _ h => hsame.trans (congrArg (withStream stream) h),
    fun _ h => hsame.trans (congrArg (withStream stream) h)⟩

/-- Settles O47: a construction takes the mode of `w8`, an update keeps it, and every other packet is the one before. -/
theorem modeComesFromConstructionOnly : Obligations.ModeComesFromConstructionOnly := fun _ _ _ _ h hq => exec_mode h hq

/-- Settles O48: the flag by the effect of each command, and `NotConstructed` where there is no packet. -/
theorem constructedFlagRules : Obligations.ConstructedFlagRules := by
  refine ⟨rfl, fun i s t r h hr => exec_con h hr, ?_⟩
  intro s smp fm i hcon hi
  exact exec_notConstructed ((State.con_eq_false_iff s).mp hcon) hi

/-- Settles O54: a step of number `k` replaces entry `k` of the list by its next state, or the list has no entry `k`. -/
theorem instancesShareNothing : Obligations.InstancesShareNothing := by
  intro k sys sys' h
  obtain ⟨hk, rfl⟩ | ⟨s, t, hk, ht, rfl⟩ := stepInstance_next h
  · exact ⟨rfl, fun _ _ => rfl, fun s hs => nomatch hk.symm.trans hs⟩
  · have hlt : k < sys.length := (List.getElem?_eq_some_iff.mp hk).1
    refine ⟨List.length_set, fun j hj => List.getElem?_set_ne hj.symm, fun s' hs' => ?_⟩
    cases hk.symm.trans hs'
    exact ⟨t, ht, List.getElem?_set_self hlt⟩

/-- Settles O9: the reset state as R24 writes it. -/
theorem resetStateIsNotConstructedAndLegacy : Obligations.ResetStateIsNotConstructedAndLegacy :=
  ⟨rfl, rfl, rfl, rfl⟩

/-- Settles O56: reset has no packet, and with a packet the invariant is R18's equation, with R10's bound. -/
theorem resetMeetsPayloadInvariant : Obligations.ResetMeetsPayloadInvariant := by
  refine ⟨rfl, rfl, fun s p hp => ?_⟩
  have hmatches : s.payloadMatches = true ↔ p.pay.length = 32 * p.hdr.nchan.toNat := by
    rw [State.payloadMatches_some hp]
    exact Memory.wf_iff p.hdr p.pay
  have hfits : s.payloadFits ↔ p.pay.length ≤ s.cap := by simp [State.payloadFits, hp]
  exact ⟨hmatches, by rw [State.wf_iff, hmatches, hfits]⟩

end Sys2Proof.Machine
end

section
/-!
PROOFS. The family 20_memory.md: byte sequences in network byte order (R30, R54) and the order of the payload (R33, R38).
A write is three parts of known length, the bytes before, the `n` bytes of the number and the bytes behind; what stands at
an index is read off the part the index falls in. That the value comes back is that `n` bytes hold it modulo `256 ^ n`.
-/

namespace Sys2Proof.Machine

/-! The bytes of a number and the number of bytes (R30, R54) -/

/-- R30: byte `i` of `n` is `(v >> 8*(n-1-i)) mod 256`. -/
theorem beBytes_getElem? {n i : Nat} (v : Nat) (hi : i < n) :
    (beBytes n v)[i]? = some (BitVec.ofNat 8 (v >>> (8 * (n - 1 - i)))) := by
  induction n generalizing i with
  | zero => exact absurd hi (Nat.not_lt_zero i)
  | succ n ih =>
    cases i with
    | zero => rfl
    | succ i =>
      have hindex : n + 1 - 1 - (i + 1) = n - 1 - i := by omega
      rw [hindex]
      exact ih (Nat.lt_of_succ_lt_succ hi)

/-- A read that goes on from `acc` puts `acc` above all the bytes that follow. -/
theorem foldl_eq_beNat (acc : Nat) (bytes : List Byte) :
    bytes.foldl (fun acc b => acc * 256 + b.toNat) acc = acc * 256 ^ bytes.length + beNat bytes := by
  induction bytes generalizing acc with
  | nil => simp [beNat]
  | cons b bytes ih =>
    rw [beNat, List.foldl_cons, List.foldl_cons, ih, ih, List.length_cons]
    ring

/-- R54: the first byte is the most significant one. -/
theorem beNat_cons (b : Byte) (bytes : List Byte) :
    beNat (b :: bytes) = b.toNat * 256 ^ bytes.length + beNat bytes := by
  rw [beNat, List.foldl_cons, foldl_eq_beNat, Nat.zero_mul, Nat.zero_add]

/-- R30, R54: the `n` bytes of a number stand for it modulo `256 ^ n`. -/
@[simp] theorem beNat_beBytes (n v : Nat) : beNat (beBytes n v) = v % 256 ^ n := by
  induction n with
  | zero => exact (Nat.mod_one v).symm
  | succ n ih =>
    have hfirst : (BitVec.ofNat 8 (v >>> (8 * n))).toNat = v / 256 ^ n % 256 := by
      rw [BitVec.toNat_ofNat, Nat.shiftRight_eq_div_pow, Nat.pow_mul]
    calc beNat (beBytes (n + 1) v)
      _ = v / 256 ^ n % 256 * 256 ^ n + v % 256 ^ n := by rw [beBytes, beNat_cons, beBytes_length, hfirst, ih]
      _ = v % 256 ^ (n + 1) := by rw [Nat.pow_succ, Nat.mod_mul, Nat.add_comm, Nat.mul_comm]

/-! Reading what was written (R30) -/

section
variable {bytes : List Byte} {a n : Nat} (v : Nat) (h : a + n ≤ bytes.length)
include h

/-- R30: a write puts byte `i` of the number at index `a + i`. -/
theorem memWrite_getElem?_within {i : Nat} (hi : i < n) : (memWrite bytes a n v)[a + i]? = (beBytes n v)[i]? := by
  have hbefore : (bytes.take a).length = a := List.length_take_of_le (by omega)
  rw [memWrite, List.append_assoc, List.getElem?_append_right (by omega), hbefore, Nat.add_sub_cancel_left,
    List.getElem?_append_left (by simpa using hi)]

/-- R30: a write leaves every byte before and behind its `n` bytes. -/
theorem memWrite_getElem?_outside {k : Nat} (hk : k < a ∨ a + n ≤ k) : (memWrite bytes a n v)[k]? = bytes[k]? := by
  have hbefore : (bytes.take a).length = a := List.length_take_of_le (by omega)
  have hfront : (bytes.take a ++ beBytes n v).length = a + n := by rw [List.length_append, hbefore, beBytes_length]
  rw [memWrite]
  obtain hk | hk := hk
  · rw [List.getElem?_append_left (by omega), List.getElem?_append_left (by omega), List.getElem?_take_of_lt hk]
  · rw [List.getElem?_append_right (by omega), hfront, List.getElem?_drop, Nat.add_sub_cancel' hk]

/-- R30, R54: what is read back is the number modulo `256 ^ n`. -/
theorem memRead_memWrite : memRead (memWrite bytes a n v) a n = v % 256 ^ n := by
  have hbefore : (bytes.take a).length = a := List.length_take_of_le (by omega)
  rw [memRead, memWrite, List.append_assoc, List.drop_left' hbefore, List.take_left' (beBytes_length n v),
    beNat_beBytes]

end

/-! The order of the payload (R33) -/

/-- R33: the number of a sample, with the constants of the format written out. -/
theorem sampleIndex_eq (c t p : Nat) : sampleIndex c t p = 32 * c + 2 * t + p := by
  simp only [sampleIndex, Config.timeSamples, Config.pols]
  omega

/-- R33: `(c, t, p)` is the split of `k` exactly when time and polarisation are in range and `k` is its number. -/
theorem sampleCoord_eq_iff {k c t p : Nat} :
    sampleCoord k = (c, t, p) ↔ t < 16 ∧ p < 2 ∧ sampleIndex c t p = k := by
  rw [sampleIndex_eq]
  simp only [sampleCoord, Config.bytesPerChannel, Config.timeSamples, Config.pols, Prod.mk.injEq]
  omega

/-! The obligations -/

/-- Settles O50: length, written bytes, other bytes and the read, with a value that `n` bytes hold. -/
theorem bigEndianWriteThenRead : Obligations.BigEndianWriteThenRead := by
  intro bytes a n v h hv
  refine ⟨memWrite_length v h, fun i hi => ?_, fun k hk => memWrite_getElem?_outside v h hk, ?_⟩
  · exact (memWrite_getElem?_within v h hi).trans (beBytes_getElem? v hi)
  · exact (memRead_memWrite v h).trans (Nat.mod_eq_of_lt hv)

/-- Settles O51: index and split are inverse by `sampleCoord_eq_iff`; the rest is arithmetic on `32*c + 2*t + p`. -/
theorem payloadIndexIsTheNestedOrder : Obligations.PayloadIndexIsTheNestedOrder := by
  refine ⟨fun c t p ht hp => ?_, fun k c t p => sampleCoord_eq_iff.mp⟩
  have hindex := sampleIndex_eq c t p
  refine ⟨hindex, sampleCoord_eq_iff.mpr ⟨ht, hp, rfl⟩, ?_, ?_, fun n => ?_⟩
  · rw [realIndex, hindex]
    ring
  · rw [imagIndex, hindex]
    ring
  · rw [hindex]
    omega

end Sys2Proof.Machine
end

section
/-!
PROOFS. The family 30_encoding.md: command words (R62 to R65), the calls that write them (R66) and `NEXT_FRAME` (R67).
Words are taken apart into their fields. `FieldRules` says of the fields which must be 0; the rows of the table and the
check of R62 and R65 are both shown to ask for just these rules, and the statements on words are read off that.
-/

namespace Sys2Proof.Machine

/-! The fields of a word (R62) -/

/-- R62: every word is given by its fields. -/
theorem exists_wordOfFields (w : CmdWord) : ∃ op w8 s fm rs cfg, w = wordOfFields op w8 s fm rs cfg :=
  ⟨_, _, _, _, _, _, (wordOfFields_extract w).symm⟩

/-- A field of one bit is that bit. -/
theorem extractLsb'_one_eq_ofBool (w : CmdWord) (i : Nat) : w.extractLsb' i 1 = BitVec.ofBool (w.getLsbD i) := by
  apply BitVec.eq_of_getLsbD_eq
  intro j hj
  obtain rfl : j = 0 := by omega
  simp

/-- R57: the bit of a mode read from a bit is that bit. -/
theorem bitOfMode_modeOfBit (b : Bool) : bitOfMode (modeOfBit b) = BitVec.ofBool b := by cases b <;> rfl

/-- R57: the two modes have different bits. -/
theorem bitOfMode_injective : Function.Injective bitOfMode := by
  intro m m'
  cases m <;> cases m' <;> decide

section

variable (op : BitVec 4) (w8 s : BitVec 1) (fm : BitVec 6) (rs cfg : BitVec 2)

theorem bitOfMode_fieldW8 : bitOfMode (fieldW8 (wordOfFields op w8 s fm rs cfg)) = w8 := by
  obtain ⟨_, hw8, _⟩ := extract_wordOfFields op w8 s fm rs cfg
  rw [fieldW8, bitOfMode_modeOfBit, ← extractLsb'_one_eq_ofBool, hw8]

theorem ofBool_fieldS : BitVec.ofBool (fieldS (wordOfFields op w8 s fm rs cfg)) = s := by
  obtain ⟨_, _, hs, _⟩ := extract_wordOfFields op w8 s fm rs cfg
  rw [fieldS, ← extractLsb'_one_eq_ofBool, hs]

theorem fieldW8_wordOfFields (m : Mode) : fieldW8 (wordOfFields op (bitOfMode m) s fm rs cfg) = m :=
  bitOfMode_injective (bitOfMode_fieldW8 ..)

theorem fieldS_wordOfFields (b : Bool) : fieldS (wordOfFields op w8 (BitVec.ofBool b) fm rs cfg) = b :=
  BitVec.ofBool_eq_iff_eq.mp (ofBool_fieldS ..)

theorem fieldFm_wordOfFields : fieldFm (wordOfFields op w8 s fm rs cfg) = fm := by
  obtain ⟨_, _, _, hfm, _⟩ := extract_wordOfFields op w8 s fm rs cfg
  exact hfm

theorem fieldCfg_wordOfFields : fieldCfg (wordOfFields op w8 s fm rs cfg) = cfg := by
  obtain ⟨_, _, _, _, _, hcfg⟩ := extract_wordOfFields op w8 s fm rs cfg
  exact hcfg

end

/-! The field rules, in the check and in the table (R62, R63, R65) -/

/-- R62: every field that opcode `op` does not own is 0. -/
structure FieldRules (op : BitVec 4) (w8 s : BitVec 1) (fm : BitVec 6) (rs cfg : BitVec 2) : Prop where
  w8_zero : opUsesW8 op = false → w8 = 0
  s_zero : opUsesS op = false → s = 0
  fm_zero : opUsesFm op = false → fm = 0
  rs_zero : rs = 0
  cfg_zero : opUsesCfg op = false → cfg = 0

/-- What a row's mask has on a field of `n` bits: nothing where the row's opcode owns the field, else every bit. -/
def fieldMask (n : Nat) (owned : Bool) : BitVec n := if owned then 0 else BitVec.allOnes n

theorem and_fieldMask_eq_zero_iff {n : Nat} (b : BitVec n) (owned : Bool) :
    b &&& fieldMask n owned = 0 ↔ (owned = false → b = 0) := by
  cases owned <;> simp [fieldMask]

/-- R62, R63: row `k` of the table matches opcode `k`, and masks every field the opcode does not own. -/
theorem cmdTable_pattern_mask {k : Nat} (hk : k < 15) :
    cmdTable[k].pattern = wordOfFields (BitVec.ofNat 4 k) 0 0 0 0 0 ∧
      cmdTable[k].mask = wordOfFields (BitVec.allOnes 4) (fieldMask 1 (opUsesW8 (BitVec.ofNat 4 k)))
        (fieldMask 1 (opUsesS (BitVec.ofNat 4 k))) (fieldMask 6 (opUsesFm (BitVec.ofNat 4 k))) (BitVec.allOnes 2)
        (fieldMask 2 (opUsesCfg (BitVec.ofNat 4 k))) := by
  revert k
  decide

/-- A chain of checks finds nothing when its first check does not apply and the rest finds nothing. -/
theorem ite_some_eq_none_iff {α : Type} {c : Prop} [Decidable c] (a : α) (o : Option α) :
    (if c then some a else o) = none ↔ ¬c ∧ o = none := by
  split <;> simp [*]

section

variable {op : BitVec 4} {w8 s : BitVec 1} {fm : BitVec 6} {rs cfg : BitVec 2}

theorem fieldRules_iff : FieldRules op w8 s fm rs cfg ↔
    (opUsesW8 op = false → w8 = 0) ∧ (opUsesS op = false → s = 0) ∧ (opUsesFm op = false → fm = 0) ∧ rs = 0 ∧
      (opUsesCfg op = false → cfg = 0) :=
  ⟨fun ⟨hw8, hs, hfm, hrs, hcfg⟩ => ⟨hw8, hs, hfm, hrs, hcfg⟩,
    fun ⟨hw8, hs, hfm, hrs, hcfg⟩ => ⟨hw8, hs, hfm, hrs, hcfg⟩⟩

/-- R65: the check passes exactly the words of an opcode below `0xF` that obey its field rules. -/
theorem checkWord_wordOfFields_eq_none_iff :
    checkWord (wordOfFields op w8 s fm rs cfg) = none ↔ op ≠ 0xF ∧ FieldRules op w8 s fm rs cfg := by
  obtain ⟨hop, hw8, hs, hfm, hrs, hcfg⟩ := extract_wordOfFields op w8 s fm rs cfg
  rw [checkWord, hop, hw8, hs, hfm, hrs, hcfg, fieldRules_iff]
  simp only [ite_some_eq_none_iff, ne_eq, not_and_not_right, not_not, and_true]

/-- R63: row `k` selects exactly the words of opcode `k` that obey its field rules. -/
theorem rowSelects_wordOfFields_iff {k : Nat} (hk : k < 15) :
    rowSelects cmdTable[k] (wordOfFields op w8 s fm rs cfg) = true ↔
      op = BitVec.ofNat 4 k ∧ FieldRules op w8 s fm rs cfg := by
  obtain ⟨hpattern, hmask⟩ := cmdTable_pattern_mask hk
  rw [rowSelects, beq_iff_eq, hpattern, hmask, wordOfFields_and, wordOfFields_inj, fieldRules_iff]
  simp only [and_fieldMask_eq_zero_iff, BitVec.and_allOnes, and_congr_right_iff]
  rintro rfl
  trivial

end

/-! The table answers by its one row (R63) -/

theorem rowSelects_iff (r : CmdRow) (w : CmdWord) : rowSelects r w = true ↔ w &&& r.mask = r.pattern := beq_iff_eq

/-- Settles O3: a word on two rows would give `match ∧ mask'` and `match' ∧ mask` one value, and no two rows do. -/
theorem tableRowsDisjoint : Obligations.TableRowsDisjoint := by
  have hpatterns : cmdTable.Pairwise fun r r' => r.pattern &&& r'.mask ≠ r'.pattern &&& r.mask := by decide
  refine hpatterns.imp ?_
  rintro r r' hne w ⟨h, h'⟩
  rw [rowSelects_iff] at h h'
  rw [← h, ← h'] at hne
  exact hne (by ac_rfl)

theorem row_unique {r r' : CmdRow} {w : CmdWord} (hr : r ∈ cmdTable) (hr' : r' ∈ cmdTable)
    (h : rowSelects r w = true) (h' : rowSelects r' w = true) : r = r' := by
  by_contra hne
  have hsymm : Std.Symm fun r r' : CmdRow => ∀ w : CmdWord, ¬(rowSelects r w = true ∧ rowSelects r' w = true) :=
    ⟨fun _ _ hd w hw => hd w hw.symm⟩
  exact tableRowsDisjoint.forall hr hr' hne w ⟨h, h'⟩

/-- R63: a word is the command of any row that selects it. -/
theorem decode_of_rowSelects {r : CmdRow} {w : CmdWord} (hr : r ∈ cmdTable) (h : rowSelects r w = true) :
    decode w = .ok (r.build w) := by
  cases hd : decode w with
  | ok i =>
    obtain ⟨r', hr', h', rfl⟩ := decode_ok hd
    rw [row_unique hr hr' h h']
  | error e => exact absurd h ((decode_error hd).2 r hr)

/-- R63: a word of opcode `k` that obeys the field rules is the command of row `k`. -/
theorem decode_wordOfFields {k : Nat} (hk : k < 15) {w8 s : BitVec 1} {fm : BitVec 6} {rs cfg : BitVec 2}
    (hrules : FieldRules (BitVec.ofNat 4 k) w8 s fm rs cfg) :
    decode (wordOfFields (BitVec.ofNat 4 k) w8 s fm rs cfg) =
      .ok (cmdTable[k].build (wordOfFields (BitVec.ofNat 4 k) w8 s fm rs cfg)) :=
  decode_of_rowSelects (List.getElem_mem hk) ((rowSelects_wordOfFields_iff hk).mpr ⟨rfl, hrules⟩)

/-- R63: a word that decodes has an opcode `k` below `0xF`, obeys the field rules and is the command of row `k`. -/
theorem decode_wordOfFields_ok {op : BitVec 4} {w8 s : BitVec 1} {fm : BitVec 6} {rs cfg : BitVec 2} {i : Instr}
    (h : decode (wordOfFields op w8 s fm rs cfg) = .ok i) :
    ∃ k, ∃ hk : k < 15, op = BitVec.ofNat 4 k ∧ FieldRules op w8 s fm rs cfg ∧
      i = cmdTable[k].build (wordOfFields op w8 s fm rs cfg) := by
  obtain ⟨r, hr, hsel, rfl⟩ := decode_ok h
  obtain ⟨k, hk, rfl⟩ := List.mem_iff_getElem.mp hr
  obtain ⟨hop, hrules⟩ := (rowSelects_wordOfFields_iff hk).mp hsel
  exact ⟨k, hk, hop, hrules, rfl⟩

/-! Encoder and decoder (R62, R63) -/

/-- A command whose word obeys the field rules of opcode `k`, and which row `k` builds from that word, is read back. -/
theorem decode_encode_of_row {i : Instr} {k : Nat} (hk : k < 15) {w8 s : BitVec 1} {fm : BitVec 6} {rs cfg : BitVec 2}
    (hword : encode i = wordOfFields (BitVec.ofNat 4 k) w8 s fm rs cfg)
    (hrules : FieldRules (BitVec.ofNat 4 k) w8 s fm rs cfg) (hbuild : cmdTable[k].build (encode i) = i) :
    decode (encode i) = .ok i := by
  rw [hword] at hbuild ⊢
  rw [decode_wordOfFields hk hrules, hbuild]

/-- Settles O1: the four commands with fields are read back from their row field by field; the words of the others are
constants. -/
theorem decodeOfEncode : Obligations.DecodeOfEncode := by
  intro i
  cases i with
  | fromFields w8 fm =>
    exact decode_encode_of_row (k := 6) (by decide) rfl ⟨nofun, fun _ => rfl, nofun, rfl, fun _ => rfl⟩
      (congrArg₂ Instr.fromFields (fieldW8_wordOfFields ..) (fieldFm_wordOfFields ..))
  | fromBytes w8 =>
    exact decode_encode_of_row (k := 7) (by decide) rfl ⟨nofun, fun _ => rfl, fun _ => rfl, rfl, fun _ => rfl⟩
      (congrArg Instr.fromBytes (fieldW8_wordOfFields ..))
  | update smp fm =>
    exact decode_encode_of_row (k := 9) (by decide) rfl ⟨fun _ => rfl, nofun, nofun, rfl, fun _ => rfl⟩
      (congrArg₂ Instr.update (fieldS_wordOfFields ..) (fieldFm_wordOfFields ..))
  | cfgWrite cfg =>
    exact decode_encode_of_row (k := 12) (by decide) rfl ⟨fun _ => rfl, fun _ => rfl, fun _ => rfl, rfl, nofun⟩
      (congrArg Instr.cfgWrite (fieldCfg_wordOfFields ..))
  | hdrEncode | hdrDecode | packNibbles | unpackNibbles | packBytes | unpackBytes | toBytes | decodedSamples
  | readFields | cfgRead | reset => rfl

/-- R62: two commands with one word are one command, as the decoder reads either back. -/
theorem encode_injective : Function.Injective encode := by
  intro i j h
  have hd := decodeOfEncode i
  rw [h, decodeOfEncode j] at hd
  exact (Except.ok.inj hd).symm

/-- R62, R63: the command that row `k` builds from a word that obeys the field rules encodes to that word. -/
theorem encode_build {k : Nat} (hk : k < 15) {w8 s : BitVec 1} {fm : BitVec 6} {rs cfg : BitVec 2}
    (hrules : FieldRules (BitVec.ofNat 4 k) w8 s fm rs cfg) :
    encode (cmdTable[k].build (wordOfFields (BitVec.ofNat 4 k) w8 s fm rs cfg)) =
      wordOfFields (BitVec.ofNat 4 k) w8 s fm rs cfg := by
  obtain ⟨hw8, hs, hfm, rfl, hcfg⟩ := hrules
  have hrows : ∀ k < 15, k = 6 ∨ k = 7 ∨ k = 9 ∨ k = 12 ∨ k ∈ [0, 1, 2, 3, 4, 5, 8, 10, 11, 13, 14] := by decide
  obtain rfl | rfl | rfl | rfl | hleaf := hrows k hk
  · obtain rfl := hs rfl
    obtain rfl := hcfg rfl
    exact congrArg₂ (cmd16 0x6 · 0 · 0) (bitOfMode_fieldW8 ..) (fieldFm_wordOfFields ..)
  · obtain rfl := hs rfl
    obtain rfl := hfm rfl
    obtain rfl := hcfg rfl
    exact congrArg (cmd16 0x7 · 0 0 0) (bitOfMode_fieldW8 ..)
  · obtain rfl := hw8 rfl
    obtain rfl := hcfg rfl
    exact congrArg₂ (cmd16 0x9 0 · · 0) (ofBool_fieldS ..) (fieldFm_wordOfFields ..)
  · obtain rfl := hw8 rfl
    obtain rfl := hs rfl
    obtain rfl := hfm rfl
    exact congrArg (cmd16 0xC 0 0 0 ·) (fieldCfg_wordOfFields ..)
  · fin_cases hleaf
    all_goals
      obtain rfl := hw8 rfl
      obtain rfl := hs rfl
      obtain rfl := hfm rfl
      obtain rfl := hcfg rfl
      rfl

/-- Settles O2: a word that decodes obeys the field rules of its row, so the row's command keeps every bit of it. -/
theorem encodeOfDecode : Obligations.EncodeOfDecode := by
  intro w i h
  obtain ⟨op, w8, s, fm, rs, cfg, rfl⟩ := exists_wordOfFields w
  obtain ⟨k, hk, rfl, hrules, rfl⟩ := decode_wordOfFields_ok h
  exact encode_build hk hrules

/-- Settles O6: each is the word the encoder writes for its command. -/
theorem writtenOutWordsDecode : Obligations.WrittenOutWordsDecode :=
  ⟨decodeOfEncode .hdrEncode, decodeOfEncode .packNibbles, decodeOfEncode (.fromFields .bits4 0b111111),
    decodeOfEncode (.fromBytes .bits8), decodeOfEncode (.update false 0b100000), decodeOfEncode (.update true 0),
    decodeOfEncode (.cfgWrite 0b10), decodeOfEncode .reset⟩

/-! Legal and illegal words (R65) -/

/-- R65: a word is legal exactly when it decodes. -/
theorem checkWord_eq_none_iff (w : CmdWord) : checkWord w = none ↔ ∃ i, decode w = .ok i := by
  obtain ⟨op, w8, s, fm, rs, cfg, rfl⟩ := exists_wordOfFields w
  rw [checkWord_wordOfFields_eq_none_iff]
  constructor
  · rintro ⟨hop, hrules⟩
    obtain ⟨k, hk, rfl⟩ : ∃ k < 15, op = BitVec.ofNat 4 k := ⟨op.toNat, by bv_omega, by simp⟩
    exact ⟨_, decode_wordOfFields hk hrules⟩
  · rintro ⟨i, h⟩
    obtain ⟨k, hk, rfl, hrules, _⟩ := decode_wordOfFields_ok h
    exact ⟨by bv_omega, hrules⟩

/-- R65: a word is illegal exactly when it is rejected, by name. -/
theorem checkWord_ne_none_iff (w : CmdWord) : checkWord w ≠ none ↔ decode w = .error (.illegalCommand w) := by
  rw [ne_eq, checkWord_eq_none_iff]
  cases hd : decode w with
  | ok i => simp
  | error e =>
    obtain ⟨rfl, _⟩ := decode_error hd
    simp

/-- Settles O4: the check and the table ask for the same field rules, and a rejection names its word. -/
theorem decodeRejectsExactlyIllFormedWords : Obligations.DecodeRejectsExactlyIllFormedWords := fun w =>
  ⟨checkWord_eq_none_iff w, checkWord_ne_none_iff w⟩

theorem checkWord_encode (i : Instr) : checkWord (encode i) = none :=
  (checkWord_eq_none_iff _).mpr ⟨i, decodeOfEncode i⟩

/-- Every `fm` is among the 64 that the list of legal words goes through. -/
theorem mem_range_map_ofNat (fm : BitVec 6) : fm ∈ (List.range 64).map (BitVec.ofNat 6) :=
  List.mem_map.mpr ⟨fm.toNat, List.mem_range.mpr fm.isLt, by simp⟩

/-- R65: the word of every command is in the list of legal words. -/
theorem encode_mem_legalWords (i : Instr) : encode i ∈ legalWords := by
  simp only [legalWords, List.mem_append]
  cases i with
  | fromFields w8 fm =>
    have hword := fun m => List.mem_map_of_mem (f := fun fm => encode (.fromFields m fm)) (mem_range_map_ofNat fm)
    cases w8 <;> simp only [hword, true_or, or_true]
  | update smp fm =>
    have hword := fun b => List.mem_map_of_mem (f := fun fm => encode (.update b fm)) (mem_range_map_ofNat fm)
    cases smp <;> simp only [hword, true_or, or_true]
  | fromBytes w8 => cases w8 <;> simp
  | cfgWrite cfg =>
    have hcfg : ∀ c : BitVec 2, c = 0 ∨ c = 1 ∨ c = 2 ∨ c = 3 := by decide
    obtain rfl | rfl | rfl | rfl := hcfg cfg
    all_goals simp
  | hdrEncode | hdrDecode | packNibbles | unpackNibbles | packBytes | unpackBytes | toBytes | decodedSamples
  | readFields | cfgRead | reset => simp

/-- R65: the list holds the legal words and no others. -/
theorem mem_legalWords_iff (w : CmdWord) : w ∈ legalWords ↔ checkWord w = none := by
  constructor
  · intro h
    simp only [legalWords, List.mem_append, List.mem_map] at h
    obtain (((((⟨_, -, rfl⟩ | ⟨_, -, rfl⟩) | ⟨_, -, rfl⟩) | ⟨_, -, rfl⟩) | ⟨_, -, rfl⟩) | ⟨_, -, rfl⟩) | ⟨_, -, rfl⟩ := h
    all_goals exact checkWord_encode _
  · intro h
    obtain ⟨i, hd⟩ := (checkWord_eq_none_iff w).mp h
    exact encodeOfDecode w i hd ▸ encode_mem_legalWords i

theorem legalWords_length : legalWords.length = 273 := by
  simp [legalWords]

/-- The words of a command that owns `fm`, one for each of its values, are all different. -/
theorem nodup_map_encode {f : BitVec 6 → Instr} (hf : Function.Injective f) :
    (((List.range 64).map (BitVec.ofNat 6)).map fun fm => encode (f fm)).Nodup := by
  have hmasks : ((List.range 64).map (BitVec.ofNat 6)).Nodup := by decide
  exact hmasks.map (encode_injective.comp hf)

/-- R65: no legal word is listed twice: part for part the list is of different commands, which have different words. -/
theorem legalWords_nodup : legalWords.Nodup := by
  have hfromFields : ∀ w8, Function.Injective (Instr.fromFields w8) := fun _ _ _ h => (Instr.fromFields.inj h).2
  have hupdate : ∀ smp, Function.Injective (Instr.update smp) := fun _ _ _ h => (Instr.update.inj h).2
  simp only [legalWords, List.nodup_append, nodup_map_encode (hfromFields _), nodup_map_encode (hupdate _),
    List.forall_mem_append, List.forall_mem_map, encode_injective.ne_iff, true_and]
  simp [encode_injective.eq_iff]

/-- R65: the step that issues a rejected word ends with `IllegalCommand` and that word. -/
theorem step_illegal {s : State} {r : Request} {rest : List Request} (hs : s.stream = r :: rest)
    (hd : decode r.word = .error (.illegalCommand r.word)) :
    step s = .next { s with stream := rest, ports := r.ports, result := some (.error (.illegalCommand r.word)) } := by
  obtain ⟨hnil, _⟩ | ⟨r', rest', hs', hcases⟩ := step_cases s
  · cases hs.symm.trans hnil
  · cases hs.symm.trans hs'
    obtain ⟨i, hd', _⟩ | ⟨e, hd', hstep⟩ := hcases
    · cases hd.symm.trans hd'
    · cases hd.symm.trans hd'
      exact hstep

/-- R100: a field construction whose `fm` is not all ones ends with `IncompleteHeader`, and leaves no packet (R147). -/
theorem exec_fromFields_incomplete (w8 : Mode) {fm : BitVec 6} (s : State) (hfm : fm ≠ allFields) :
    exec (.fromFields w8 fm) s = .next { s with ctx := none, result := some (.error (.incompleteHeader (~~~fm))) } := by
  have hpacket : packetOfFields s.sf w8 fm s.ports.fin s.ports.sin = .error (.incompleteHeader (~~~fm)) := if_neg hfm
  calc exec (.fromFields w8 fm) s
    _ = construct (packetOfFields s.sf w8 fm s.ports.fin s.ports.sin) s := rfl
    _ = _ := by rw [hpacket]; exact raiseConstruction_eq _ s

/-- Settles O5: the list is counted and compared through the encoder, and any other word is rejected by name. -/
theorem illegalWordsEndWithIllegalCommand : Obligations.IllegalWordsEndWithIllegalCommand := by
  refine ⟨legalWords_length, legalWords_nodup, mem_legalWords_iff, fun s r rest hs hw => ?_,
    fun w8 fm => encode_mem_legalWords _, fun w8 fm s hfm => ⟨_, _, exec_fromFields_incomplete w8 s hfm, rfl⟩⟩
  rw [mem_legalWords_iff] at hw
  exact step_illegal hs ((checkWord_ne_none_iff r.word).mp hw)

/-! Calls (R66) -/

/-- R66: "A named field operand that is written sets its bit of `fm`; one that is left out clears it." -/
theorem FieldArgs.supplied_mask (a : FieldArgs) (i : Fin 6) : supplied a.mask i = (a.get i).isSome := by
  simp only [supplied, FieldArgs.mask, BitVec.getLsbD_append]
  fin_cases i <;> simp [FieldArgs.get]

theorem FieldArgs.values_get (a : FieldArgs) (i : Fin 6) : a.values.get i = (a.get i).getD 0 := by
  fin_cases i <;> rfl

/-- R62, R66: naming one field alone sets its one bit of `fm`. -/
theorem FieldArgs.mask_only (i : Fin 6) (v : Int) : (FieldArgs.only i v).mask = BitVec.twoPow 6 i := by
  fin_cases i <;> simp [FieldArgs.only, FieldArgs.mask, BitVec.twoPow]

/-- R66: the word of a call is the word of its command. -/
theorem Call.decode_request (c : Call) : decode c.request.word = .ok c.instr := decodeOfEncode c.instr

/-- Settles O52: words by the decoder, masks and values operand by operand, the other ports by their definition. -/
theorem callRequestCarriesItsOperands : Obligations.CallRequestCarriesItsOperands := by
  refine ⟨fun c => ⟨checkWord_encode c.instr, c.decode_request⟩, fun a i => ⟨?mask, fun v w8 xs smp hv => ?value⟩,
    fun w8 a xs => ⟨Call.decode_request _, Call.decode_request _, Call.decode_request _, rfl, rfl⟩, fun h => rfl,
    fun w8 bytes => ⟨Call.decode_request _, ?bytes⟩, fun n xs => ?samples,
    fun sf sl => ⟨_, Call.decode_request _, ?sf, ?sl⟩⟩
  case mask => rw [a.supplied_mask, Option.isSome_iff_exists]
  case value =>
    have hvalue : a.values.get i = v := by rw [a.values_get, hv, Option.getD_some]
    exact ⟨hvalue, hvalue⟩
  case bytes => simp [Call.request, Call.ports]
  case samples => simp [Call.request, Call.ports]
  case sf => cases sf <;> cases sl <;> rfl
  case sl => cases sf <;> cases sl <;> rfl

/-! `NEXT_FRAME` (R67, R107) -/

/-- R55: in legacy mode no operand is checked. -/
theorem fieldsAccepted_of_legacy (fm : BitVec 6) {s : State} (hsf : s.sf = false) : fieldsAccepted fm s :=
  fun hstrict => absurd hstrict (Bool.eq_false_iff.mp hsf)

/-- R103: an update without samples whose operands are accepted, and whose header still implies the length of the stored
payload, replaces the supplied fields and nothing else. -/
theorem exec_update_fields {fm : BitVec 6} {s : State} {p : Packet} (hp : s.ctx = some p) (ha : fieldsAccepted fm s)
    (hlen : p.pay.length = (supplyFields fm s.ports.fin p.hdr).expBytes) :
    exec (.update false fm) s = .next { s with
      ctx := some { p with hdr := supplyFields fm s.ports.fin p.hdr }, result := some (.ok .none) } := by
  have hupdated : updatedPacket s.sf false fm s.ports.fin s.ports.sin p =
      .ok { p with hdr := supplyFields fm s.ports.fin p.hdr } := by
    rw [updatedPacket, reduceFields_accepted ha]
    exact if_pos hlen
  calc exec (.update false fm) s
    _ = execUpdate false fm s := rfl
    _ = _ := by rw [execUpdate, withPacket_some hp, hupdated]; exact complete_eq ..

/-- R67: the second command of `NEXT_FRAME` names `sampleNumber` alone. -/
theorem nextFrame_instr (h : Header) : (nextFrame h).instr = .update false 0b100000 :=
  congrArg (Instr.update false) (FieldArgs.mask_only 5 _)

/-- R67, R107: the exact sum the host presents is stored modulo `2 ^ 64`. -/
theorem supplyFields_nextFrame (h : Header) :
    supplyFields 0b100000 (nextFrame h).request.ports.fin h = { h with snum := h.snum + 16 } := by
  have hsum : mask 64 (h.snum.toNat + Config.timeSamples) = h.snum + 16 := by
    rw [mask, BitVec.ofInt_add]
    simp [Config.timeSamples]
  exact congrArg (fun v => { h with snum := v }) hsum

/-- Settles O53: the step is the update of `sampleNumber` alone, which keeps `numChannels` and so the payload's length. -/
theorem nextFrameAdvancesSampleNumber : Obligations.NextFrameAdvancesSampleNumber := by
  intro s p rest hp hwf hsf hs
  obtain ⟨hmatches, _⟩ := (State.wf_iff s).mp hwf
  have hlen : p.pay.length = p.hdr.expBytes := by
    rwa [State.payloadMatches_some hp, Memory.wf_iff] at hmatches
  have hstep := stepRunsTheDecodedCommand s _ rest _ hs (Call.decode_request _)
  rw [nextFrame_instr] at hstep
  have hfields := supplyFields_nextFrame p.hdr
  have hupdate := exec_update_fields (fm := 0b100000)
    (s := { s with ports := (nextFrame p.hdr).request.ports, stream := rest }) hp (fieldsAccepted_of_legacy _ hsf)
    (by rw [hfields]; exact hlen)
  rw [hfields] at hupdate
  exact hstep.trans hupdate

end Sys2Proof.Machine
end

section
/-!
PROOFS. The family 40_header_packer.md: `HDR_ENCODE` and `HDR_DECODE` (R75 to R77), and that the commands of HP and SS
touch no state (R78, R93). A wire header is its six fields laid end to end, field `i` the `fieldBytes i` bytes at
`fieldOffset i`; what is encoded and decoded is said once for a field `i`, with the number `Header.get i` it holds.
-/

namespace Sys2Proof.Machine

/-! Numbers and their bytes (R54) -/

/-- R54: byte `j` of the number has the weight `256 ^ (n - 1 - j)`. -/
theorem beNat_eq_sum (bytes : List Byte) :
    beNat bytes = ∑ j ∈ Finset.range bytes.length, (bytes.getD j 0).toNat * 256 ^ (bytes.length - 1 - j) := by
  induction bytes with
  | nil => rfl
  | cons b bytes ih =>
    have hweight : ∀ j, bytes.length - 1 - j = bytes.length - (j + 1) := fun j => by omega
    rw [beNat_cons, ih, List.length_cons, Finset.sum_range_succ', Nat.add_comm]
    simp [hweight]

/-- R54: the number has the bytes as its digits to base 256, the last byte the lowest. -/
theorem beNat_eq_ofDigits (bytes : List Byte) : beNat bytes = Nat.ofDigits 256 (bytes.reverse.map BitVec.toNat) := by
  simp [beNat, Nat.ofDigits_eq_foldr, List.foldl_map, List.foldr_reverse, Nat.add_comm, Nat.mul_comm]

/-- R7: a byte is a digit to base 256. -/
theorem digit_lt_of_mem {bytes : List Byte} : ∀ d ∈ bytes.reverse.map BitVec.toNat, d < 256 :=
  List.forall_mem_map.mpr fun b _ => b.isLt

theorem beNat_lt (bytes : List Byte) : beNat bytes < 256 ^ bytes.length := by
  have h := Nat.ofDigits_lt_base_pow_length (by decide) (digit_lt_of_mem (bytes := bytes))
  rwa [← beNat_eq_ofDigits, List.length_map, List.length_reverse] at h

/-- R54: of the byte sequences of one length, no two stand for the same number. -/
theorem eq_of_beNat_eq {bytes bytes' : List Byte} (hlen : bytes.length = bytes'.length)
    (h : beNat bytes = beNat bytes') : bytes = bytes' := by
  rw [beNat_eq_ofDigits, beNat_eq_ofDigits] at h
  have hdigits := Nat.ofDigits_inj_of_len_eq (by decide) (by simpa using hlen) digit_lt_of_mem digit_lt_of_mem h
  exact List.reverse_injective (List.map_injective_iff.mpr (fun _ _ => BitVec.eq_of_toNat_eq) hdigits)

/-- R30, R54: the bytes of the number that a byte sequence stands for are that sequence. -/
theorem beBytes_beNat (bytes : List Byte) : beBytes bytes.length (beNat bytes) = bytes := by
  apply eq_of_beNat_eq (beBytes_length ..)
  rw [beNat_beBytes, Nat.mod_eq_of_lt (beNat_lt bytes)]

theorem memRead_lt (bytes : List Byte) (a n : Nat) : memRead bytes a n < 256 ^ n :=
  (beNat_lt _).trans_le (Nat.pow_le_pow_right (by decide) (List.length_take_le _ _))

section
variable {bytes : List Byte} {a n : Nat} (h : a + n ≤ bytes.length)
include h

/-- R21: within the sequence there are all the `n` bytes from `a` on. -/
theorem take_drop_length : ((bytes.drop a).take n).length = n :=
  List.length_take_of_le (by rw [List.length_drop]; omega)

/-- R54: a read within the sequence is the sum over its bytes. -/
theorem memRead_eq_sum :
    memRead bytes a n = ∑ j ∈ Finset.range n, (bytes.getD (a + j) 0).toNat * 256 ^ (n - 1 - j) := by
  rw [memRead, beNat_eq_sum, take_drop_length h]
  refine Finset.sum_congr rfl fun j hj => ?_
  rw [List.getD_eq_getElem?_getD, List.getElem?_take_of_lt (Finset.mem_range.mp hj), List.getElem?_drop,
    ← List.getD_eq_getElem?_getD]

/-- R30, R54: writing out the number read within the sequence gives the bytes that were read. -/
theorem beBytes_memRead : beBytes n (memRead bytes a n) = (bytes.drop a).take n := by
  have hbytes := beBytes_beNat ((bytes.drop a).take n)
  rw [take_drop_length h] at hbytes
  exact hbytes

end

/-! The fields of a header, one by one (R11, R32) -/

/-- R32: every field lies within the sixteen header bytes. -/
theorem fieldOffset_add_fieldBytes_le (i : Fin 6) : fieldOffset i + fieldBytes i ≤ 16 := by
  revert i
  decide

/-- R11, R54: a field holds a number of its wire bytes. -/
theorem Header.get_lt (h : Header) (i : Fin 6) : h.get i < 256 ^ fieldBytes i := by
  fin_cases i <;> exact BitVec.isLt _

/-- R11: a header is given by the numbers in its six fields. -/
theorem Header.ext_get {h h' : Header} (heq : ∀ i, h.get i = h'.get i) : h = h' := by
  cases h
  cases h'
  simp only [Header.mk.injEq]
  exact ⟨BitVec.eq_of_toNat_eq (heq 0), BitVec.eq_of_toNat_eq (heq 1), BitVec.eq_of_toNat_eq (heq 2),
    BitVec.eq_of_toNat_eq (heq 3), BitVec.eq_of_toNat_eq (heq 4), BitVec.eq_of_toNat_eq (heq 5)⟩

/-- R32: sixteen bytes are the bytes of the six fields end to end. -/
theorem take_headerBytes_eq_flatMap (bytes : List Byte) :
    bytes.take 16 = [0, 1, 2, 3, 4, 5].flatMap fun i => (bytes.drop (fieldOffset i)).take (fieldBytes i) := by
  have hsplit : bytes.take (1 + (1 + (2 + (2 + (2 + 8))))) =
      bytes.take 1 ++ ((bytes.drop 1).take 1 ++ ((bytes.drop 2).take 2 ++ ((bytes.drop 4).take 2 ++
        ((bytes.drop 6).take 2 ++ (bytes.drop 8).take 8)))) := by
    simp only [List.take_add, List.drop_drop]
  simpa [fieldOffset, fieldBytes, fieldWidth] using hsplit

/-- R75: the encoded header is the numbers of the six fields end to end, each big-endian. -/
theorem encodeHeader_eq_flatMap (h : Header) :
    encodeHeader h = [0, 1, 2, 3, 4, 5].flatMap fun i => beBytes (fieldBytes i) (h.get i) := rfl

theorem encodeHeader_length (h : Header) : (encodeHeader h).length = 16 := rfl

/-- R75: field `i` of the encoded header. -/
theorem encodeHeader_field (h : Header) (i : Fin 6) :
    ((encodeHeader h).drop (fieldOffset i)).take (fieldBytes i) = beBytes (fieldBytes i) (h.get i) := by
  fin_cases i <;> rfl

/-- R75: byte `j` of field `i`. -/
theorem encodeHeader_getElem? (h : Header) (i : Fin 6) {j : Nat} (hj : j < fieldBytes i) :
    (encodeHeader h)[fieldOffset i + j]? = some (BitVec.ofNat 8 (h.get i >>> (8 * (fieldBytes i - 1 - j)))) := by
  rw [← beBytes_getElem? _ hj, ← encodeHeader_field, List.getElem?_take_of_lt hj, List.getElem?_drop]

/-- R75: the byte of a field of one byte is the field's number. -/
theorem encodeHeader_single_byte (h : Header) (i : Fin 6) (hone : fieldBytes i = 1) (b : Byte)
    (hb : h.get i = b.toNat) : (encodeHeader h)[fieldOffset i]? = some b := by
  have hbyte := encodeHeader_getElem? h i (j := 0) (by rw [hone]; exact Nat.one_pos)
  rw [hone, hb] at hbyte
  simpa using hbyte

/-- R76: field `i` of the decoded header. -/
theorem decodeHeader_get (bytes : List Byte) (i : Fin 6) :
    (decodeHeader bytes).get i = memRead bytes (fieldOffset i) (fieldBytes i) := by
  have hlt := memRead_lt bytes (fieldOffset i) (fieldBytes i)
  fin_cases i <;> exact Nat.mod_eq_of_lt hlt

/-- R54, R76: the fields of a decoded header are R54's sums, where there are sixteen bytes. -/
theorem decodeHeader_get_eq_wireField {bytes : List Byte} (hlen : 16 ≤ bytes.length) (i : Fin 6) :
    (decodeHeader bytes).get i = wireField bytes i :=
  (decodeHeader_get bytes i).trans (memRead_eq_sum ((fieldOffset_add_fieldBytes_le i).trans hlen))

/-! Encoding and decoding are inverse (R77) -/

theorem decodeHeader_encodeHeader (h : Header) : decodeHeader (encodeHeader h) = h := by
  apply Header.ext_get
  intro i
  calc (decodeHeader (encodeHeader h)).get i
    _ = beNat (beBytes (fieldBytes i) (h.get i)) := by rw [decodeHeader_get, memRead, encodeHeader_field]
    _ = h.get i := by rw [beNat_beBytes, Nat.mod_eq_of_lt (h.get_lt i)]

theorem encodeHeader_decodeHeader {bytes : List Byte} (hlen : 16 ≤ bytes.length) :
    encodeHeader (decodeHeader bytes) = bytes.take 16 := by
  have hfield : ∀ i, beBytes (fieldBytes i) ((decodeHeader bytes).get i) =
      (bytes.drop (fieldOffset i)).take (fieldBytes i) := fun i => by
    rw [decodeHeader_get, beBytes_memRead ((fieldOffset_add_fieldBytes_le i).trans hlen)]
  rw [encodeHeader_eq_flatMap, take_headerBytes_eq_flatMap, funext hfield]

/-! The two commands (R75, R76) -/

/-- R75: `HDR_ENCODE` completes with the encoded header operand. -/
theorem exec_hdrEncode (s : State) :
    exec .hdrEncode s = .next { s with result := some (.ok (.bout (encodeHeader s.ports.hin))) } := rfl

/-- R76: `HDR_DECODE` of sixteen bytes or more completes. -/
theorem exec_hdrDecode_ok {s : State} (hlen : 16 ≤ s.ports.bin.length) :
    exec .hdrDecode s = .next { s with result := some (.ok (.fout (decodeHeader s.ports.bin))) } := by
  have hdecode : hdrDecode s.ports.bin = .ok (decodeHeader s.ports.bin) := if_neg (Nat.not_lt.mpr hlen)
  calc exec .hdrDecode s
    _ = finish ((hdrDecode s.ports.bin).map Output.fout) s := rfl
    _ = _ := by rw [hdecode]; rfl

/-- R76: `HDR_DECODE` of fewer bytes is `TruncatedPacket`. -/
theorem exec_hdrDecode_truncated {s : State} (hlen : s.ports.bin.length < 16) :
    exec .hdrDecode s = .next { s with result := some (.error (.truncatedPacket 16 s.ports.bin.length)) } := by
  have hdecode : hdrDecode s.ports.bin = .error (.truncatedPacket 16 s.ports.bin.length) := if_pos hlen
  calc exec .hdrDecode s
    _ = finish ((hdrDecode s.ports.bin).map Output.fout) s := rfl
    _ = _ := by rw [hdecode]; rfl

/-- Everything a completed `HDR_DECODE` can give. -/
theorem exec_hdrDecode_fout {s : State} {h : Header}
    (hex : exec .hdrDecode s = .next { s with result := some (.ok (.fout h)) }) :
    16 ≤ s.ports.bin.length ∧ h = decodeHeader s.ports.bin := by
  obtain hshort | hlen := Nat.lt_or_ge s.ports.bin.length 16
  · cases (exec_hdrDecode_truncated hshort).symm.trans hex
  · cases (exec_hdrDecode_ok hlen).symm.trans hex
    exact ⟨hlen, rfl⟩

/-! No state (R78, R93) -/

/-- R78, R93: a command that ends with a function of the ports ends with one result in every state with those ports. -/
theorem exec_result_of_ports {i : Instr} (f : Ports → Except Error Output)
    (hexec : ∀ s, exec i s = finish (f s.ports) s) (ports : Ports) :
    ∃ r : Result, ∀ s : State, s.ports = ports → exec i s = .next { s with result := some r } := by
  cases hf : f ports with
  | ok out =>
    refine ⟨.ok out, ?_⟩
    rintro s rfl
    rw [hexec, hf]
    exact complete_eq out s
  | error e =>
    refine ⟨.error e, ?_⟩
    rintro s rfl
    rw [hexec, hf]
    exact raise_eq e s

/-! The obligations -/

/-- Settles O11: the bytes of each field, the two single bytes among them. -/
theorem hdrEncodeWritesFieldsBigEndian : Obligations.HdrEncodeWritesFieldsBigEndian := by
  refine ⟨rfl, fun s => ⟨_, exec_hdrEncode s, encodeHeader_length _, ?fw, ?flags, fun j => encodeHeader_getElem? _ 2,
    fun j => encodeHeader_getElem? _ 3, fun j => encodeHeader_getElem? _ 4, fun j => encodeHeader_getElem? _ 5⟩⟩
  case fw => exact encodeHeader_single_byte s.ports.hin 0 rfl s.ports.hin.fw rfl
  case flags => exact encodeHeader_single_byte s.ports.hin 1 rfl s.ports.hin.flags rfl

/-- Settles O12: the fields by R54's sums where there are sixteen bytes, and the error where there are not. -/
theorem hdrDecodeReadsFieldsBigEndian : Obligations.HdrDecodeReadsFieldsBigEndian :=
  ⟨rfl, fun _ => ⟨fun hlen => ⟨_, exec_hdrDecode_ok hlen, decodeHeader_get_eq_wireField hlen⟩,
    exec_hdrDecode_truncated⟩⟩

/-- Settles O13: the two round trips of a header, on the outputs the commands give. -/
theorem headerEncodeDecodeInverse : Obligations.HeaderEncodeDecodeInverse := by
  refine ⟨fun s t bytes h hbin => ?decodeOfEncode, fun s t h hex hhin => ?encodeOfDecode⟩
  case decodeOfEncode =>
    cases (exec_hdrEncode s).symm.trans h
    have hlen : 16 ≤ t.ports.bin.length := by rw [hbin, encodeHeader_length]
    rw [exec_hdrDecode_ok hlen, hbin, decodeHeader_encodeHeader]
  case encodeOfDecode =>
    obtain ⟨hlen, rfl⟩ := exec_hdrDecode_fout hex
    rw [exec_hdrEncode, hhin, encodeHeader_decodeHeader hlen]

/-- Settles O21: what each of the six commands ends with is a function of the operand ports. -/
theorem headerAndSampleCommandsTouchNoState : Obligations.HeaderAndSampleCommandsTouchNoState := by
  intro i hi
  simp only [List.mem_cons, List.not_mem_nil, or_false] at hi
  obtain rfl | rfl | rfl | rfl | rfl | rfl := hi
  · exact exec_result_of_ports (fun p => .ok (.bout (encodeHeader p.hin))) fun _ => rfl
  · exact exec_result_of_ports (fun p => (hdrDecode p.bin).map .fout) fun _ => rfl
  · exact exec_result_of_ports (fun p => (packNibbles p.sin p.nin).map .bout) fun _ => rfl
  · exact exec_result_of_ports (fun p => .ok (.sout (.pairs (unpackNibbles p.bin)))) fun _ => rfl
  · exact exec_result_of_ports (fun p => (packBytes p.sin p.nin).map .bout) fun _ => rfl
  · exact exec_result_of_ports (fun p => .ok (.sout (.flat (unpackBytes p.bin)))) fun _ => rfl

end Sys2Proof.Machine
end

section
/-!
PROOFS. The family 41_sample_serializer.md: the pack and unpack commands of SS (R85 to R88) and that they are inverse
(R89, R90, R92). A component packed into a nibble reads back as its balanced remainder `Int.bmod` modulo 16, which is
the component itself in `[-8, 7]`; one packed into a byte reads back modulo 256.
-/

namespace Sys2Proof.Machine

/-! Nibbles: what one byte holds (R56, R90) -/

/-- R90: a component masked to a nibble and read with sign extension is its representative modulo 16 in `[-8, 7]`. -/
theorem nibbleValue_emod (v : Int) : nibbleValue (v % 16).toNat = v.bmod 16 := by
  rw [nibbleValue, Int.bmod_def]
  split <;> split <;> omega

/-- R56: the two components of a byte pack into that byte. -/
theorem cs8_cs8Pair (b : Byte) : cs8 (cs8Pair b).1 (cs8Pair b).2 = b := by
  revert b
  decide

/-! Nibble sequences (R89) -/

@[simp] theorem flattenPairs_cons (x : Int × Int) (xs : List (Int × Int)) :
    flattenPairs (x :: xs) = x.1 :: x.2 :: flattenPairs xs := rfl

theorem flattenPairs_length (xs : List (Int × Int)) : (flattenPairs xs).length = 2 * xs.length := by
  induction xs with
  | nil => rfl
  | cons x xs ih => simp [ih, Nat.mul_add]

/-- R90: every component of a sequence that packs reads back as its representative modulo 16. -/
theorem flattenPairs_unpackNibbles_nibbleBytes : ∀ {n : Nat} {samples : List Int}, samples.length = 2 * n →
    flattenPairs (unpackNibbles (nibbleBytes samples)) = samples.map (Int.bmod · 16)
  | 0, [], _ => rfl
  | n + 1, re :: im :: rest, h => by
    have hr : rest.length = 2 * n := by simp at h; omega
    calc flattenPairs (unpackNibbles (nibbleBytes (re :: im :: rest)))
      _ = (cs8Pair (cs8 re im)).1 :: (cs8Pair (cs8 re im)).2 ::
            flattenPairs (unpackNibbles (nibbleBytes rest)) := rfl
      _ = re.bmod 16 :: im.bmod 16 :: rest.map (Int.bmod · 16) := by
        rw [cs8Pair_cs8, nibbleValue_emod, nibbleValue_emod, flattenPairs_unpackNibbles_nibbleBytes hr]
  | n + 1, [_], h => by simp at h; omega

/-- R89: the components of a byte sequence pack into that sequence. -/
theorem nibbleBytes_flattenPairs_unpackNibbles (bytes : List Byte) :
    nibbleBytes (flattenPairs (unpackNibbles bytes)) = bytes := by
  induction bytes with
  | nil => rfl
  | cons b bytes ih =>
    calc nibbleBytes (flattenPairs (unpackNibbles (b :: bytes)))
      _ = cs8 (cs8Pair b).1 (cs8Pair b).2 :: nibbleBytes (flattenPairs (unpackNibbles bytes)) := rfl
      _ = b :: bytes := by rw [cs8_cs8Pair, ih]

/-- R89: a component in `[-8, 7]` is its own representative modulo 16. -/
theorem map_bmod_16_eq_self {samples : List Int} (h : ∀ v ∈ samples, -8 ≤ v ∧ v ≤ 7) :
    samples.map (Int.bmod · 16) = samples := by
  have hself : ∀ v ∈ samples, v.bmod 16 = v := fun v hv => by
    obtain ⟨hlow, hhigh⟩ := h v hv
    exact Int.bmod_eq_of_le hlow (Int.lt_add_one_of_le hhigh)
  exact (List.map_congr_left hself).trans samples.map_id

/-! Byte sequences (R92) -/

/-- R92: every component of a sequence reads back modulo 256. -/
theorem unpackBytes_map_mask (samples : List Int) : unpackBytes (samples.map (mask 8)) = samples.map (· % 256) := by
  rw [unpackBytes, List.map_map]
  exact List.map_congr_left fun v _ => mask_toNat 8 v

/-- R92: the components of a byte sequence pack into that sequence. -/
theorem map_mask_unpackBytes (bytes : List Byte) : (unpackBytes bytes).map (mask 8) = bytes := by
  have hself : ∀ b : Byte, mask 8 b.toNat = b := fun b => by simp [mask]
  rw [unpackBytes, List.map_map]
  exact (List.map_congr_left fun b _ => hself b).trans bytes.map_id

/-- R92: a component in `[0, 255]` is its own remainder modulo 256. -/
theorem map_emod_256_eq_self {samples : List Int} (h : ∀ v ∈ samples, 0 ≤ v ∧ v ≤ 255) :
    samples.map (· % 256) = samples := by
  have hself : ∀ v ∈ samples, v % 256 = v := fun v hv => by
    obtain ⟨hlow, hhigh⟩ := h v hv
    exact Int.emod_eq_of_lt hlow (Int.lt_add_one_of_le hhigh)
  exact (List.map_congr_left hself).trans samples.map_id

/-! The four commands (R85 to R88) -/

/-- A command that ends with the bytes of `r` completes with `bytes` exactly when they are what `r` answers. -/
theorem finish_bout_iff {r : Except Error (List Byte)} {s : State} {bytes : List Byte} :
    finish (r.map Output.bout) s = .next { s with result := some (.ok (.bout bytes)) } ↔ r = .ok bytes := by
  cases r with
  | ok out => exact ⟨fun h => by cases h; rfl, fun h => by cases h; rfl⟩
  | error e => exact ⟨nofun, nofun⟩

/-- R85: everything a completed `PACK_NIBBLES` can give. -/
theorem exec_packNibbles_bout_iff {s : State} {bytes : List Byte} :
    exec .packNibbles s = .next { s with result := some (.ok (.bout bytes)) } ↔
      s.ports.sin.length = 2 * s.ports.nin ∧ nibbleBytes s.ports.sin = bytes := by
  refine finish_bout_iff.trans ?_
  rw [packNibbles]
  split <;> simp [*]

/-- R87: everything a completed `PACK_BYTES` can give. -/
theorem exec_packBytes_bout_iff {s : State} {bytes : List Byte} :
    exec .packBytes s = .next { s with result := some (.ok (.bout bytes)) } ↔
      s.ports.sin.length = s.ports.nin ∧ s.ports.sin.map (mask 8) = bytes := by
  refine finish_bout_iff.trans ?_
  rw [packBytes]
  split <;> simp [*]

/-- R86: `UNPACK_NIBBLES` completes in every state. -/
theorem exec_unpackNibbles (s : State) :
    exec .unpackNibbles s = .next { s with result := some (.ok (.sout (.pairs (unpackNibbles s.ports.bin)))) } := rfl

/-- R88: `UNPACK_BYTES` completes in every state. -/
theorem exec_unpackBytes (s : State) :
    exec .unpackBytes s = .next { s with result := some (.ok (.sout (.flat (unpackBytes s.ports.bin)))) } := rfl

/-- R85, R87: a command that packs `SIN` in mode `m` against `NIN` bytes completes with the packing for the right count,
and ends with `PayloadLengthMismatch` for any other. -/
theorem exec_pack_cases {i : Instr} (m : Mode)
    (hexec : ∀ s, exec i s = finish ((pack m s.ports.sin s.ports.nin).map Output.bout) s) (s : State) :
    (s.ports.sin.length = components m s.ports.nin → ∃ bytes,
      exec i s = .next { s with result := some (.ok (.bout bytes)) } ∧
        bytes.length = s.ports.nin ∧ packsTo m s.ports.sin bytes) ∧
    (s.ports.sin.length ≠ components m s.ports.nin →
      exec i s = .next { s with
        result := some (.error
          (.payloadLengthMismatch s.ports.nin (components m s.ports.nin) s.ports.sin.length)) }) := by
  refine ⟨fun hcount => ?right, fun hcount => ?wrong⟩
  case right =>
    obtain ⟨bytes, hpack, hbytes⟩ := pack_right_count hcount
    exact ⟨bytes, (hexec s).trans (finish_bout_iff.mpr hpack), hbytes⟩
  case wrong =>
    rw [hexec, pack_wrong_count hcount]
    exact raise_eq _ s

/-! The obligations -/

/-- Settles O14: `PACK_NIBBLES` is the pack command of the default mode. -/
theorem packNibblesPacksPairs : Obligations.PackNibblesPacksPairs :=
  ⟨rfl, exec_pack_cases .bits4 fun _ => rfl⟩

/-- Settles O15: byte by byte, the pair of a byte is its two nibbles as signed numbers. -/
theorem unpackNibblesGivesSignedPairs : Obligations.UnpackNibblesGivesSignedPairs := by
  refine ⟨rfl, fun s => ⟨_, exec_unpackNibbles s, List.length_map .., fun k b hb => ?_⟩⟩
  rw [unpackNibbles, List.getElem?_map, hb, ← cs8Pair_eq]
  rfl

/-- Settles O16: `PACK_BYTES` is the pack command of the legacy mode. -/
theorem packBytesMasksComponents : Obligations.PackBytesMasksComponents :=
  ⟨rfl, exec_pack_cases .bits8 fun _ => rfl⟩

/-- Settles O17: byte by byte. -/
theorem unpackBytesGivesUnsignedComponents : Obligations.UnpackBytesGivesUnsignedComponents := by
  refine ⟨rfl, fun s => ⟨_, exec_unpackBytes s, List.length_map .., fun k b hb => ?_⟩⟩
  rw [unpackBytes, List.getElem?_map, hb]
  rfl

/-- Settles O18: components in `[-8, 7]` are their own representatives modulo 16, and bytes read and packed are kept. -/
theorem nibbleRoundTrip : Obligations.NibbleRoundTrip := by
  refine ⟨fun s t bytes hpack hbin hrange => ?unpackOfPack, fun s t xs hunpack hsin hnin => ?packOfUnpack⟩
  case unpackOfPack =>
    obtain ⟨hcount, rfl⟩ := exec_packNibbles_bout_iff.mp hpack
    refine ⟨_, exec_unpackNibbles t, ?_⟩
    rw [hbin, flattenPairs_unpackNibbles_nibbleBytes hcount, map_bmod_16_eq_self hrange]
  case packOfUnpack =>
    cases (exec_unpackNibbles s).symm.trans hunpack
    refine exec_packNibbles_bout_iff.mpr ⟨?count, ?bytes⟩
    case count => rw [hsin, hnin, flattenPairs_length, unpackNibbles, List.length_map]
    case bytes => rw [hsin, nibbleBytes_flattenPairs_unpackNibbles]

/-- Settles O19: what is read back is the list of the balanced remainders modulo 16. -/
theorem nibbleComponentsReadBackModulo16 : Obligations.NibbleComponentsReadBackModulo16 := by
  intro s t hcount
  refine ⟨_, exec_packNibbles_bout_iff.mpr ⟨hcount, rfl⟩, fun hbin => ⟨_, exec_unpackNibbles t, ?_⟩⟩
  rw [hbin, flattenPairs_unpackNibbles_nibbleBytes hcount]
  refine ⟨List.length_map .., fun k v r hv hr => ?_⟩
  obtain rfl : v.bmod 16 = r := by simpa [hv] using hr
  exact ⟨Int.le_bmod (by decide), Int.le_of_lt_add_one (Int.bmod_lt (by decide)), Int.bmod_emod⟩

/-- Settles O20: components read back modulo 256, and bytes read and packed are kept. -/
theorem byteRoundTrip : Obligations.ByteRoundTrip := by
  refine ⟨fun s t bytes hpack hbin => ⟨?unpackOfPack, map_emod_256_eq_self⟩,
    fun s t xs hunpack hsin hnin => ?packOfUnpack⟩
  case unpackOfPack =>
    obtain ⟨-, rfl⟩ := exec_packBytes_bout_iff.mp hpack
    rw [exec_unpackBytes, hbin, unpackBytes_map_mask]
  case packOfUnpack =>
    cases (exec_unpackBytes s).symm.trans hunpack
    refine exec_packBytes_bout_iff.mpr ⟨?count, ?bytes⟩
    case count => rw [hsin, hnin, unpackBytes, List.length_map]
    case bytes => rw [hsin, map_mask_unpackBytes]

end Sys2Proof.Machine
end

section
/-!
PROOFS. The family 42_packet_framer.md: the six commands of PF (R100 to R105) and their laws (R108 to R111, R114). Each
packet computation is said once for accepted operands, as the packing of the samples under the new header, and once for
each failing check. A parse is characterised by `packetOfBytes_eq_ok_iff`: it accepts exactly the buffers that begin
with the bytes of a well-formed packet, which gives the round trip both ways. `WritesPayload` says when a command passes its
checks and writes a payload anew; such a command is `storePacket`, and only such a command can be refused.
-/

namespace Sys2Proof.Machine

/-! Field operands (R55, R103) -/

/-- R8: a masked operand as the number it holds. -/
theorem mask_toNat_eq (w : Nat) (v : Int) : (mask w v).toNat = (v % 2 ^ w).toNat := by
  rw [← mask_toNat, Int.toNat_natCast]

theorem FieldValues.masked_get (v : FieldValues) (i : Fin 6) : (v.masked.get i : Int) = v.get i % 2 ^ fieldWidth i := by
  fin_cases i <;> exact mask_toNat _ _

theorem supplyFields_get_of_supplied {fm : BitVec 6} {i : Fin 6} (v : FieldValues) (h : Header)
    (hi : supplied fm i = true) : (supplyFields fm v h).get i = v.masked.get i := by
  fin_cases i <;> exact congrArg BitVec.toNat (if_pos hi)

/-- R103: every field after an update, as a number. -/
theorem supplyFields_get (fm : BitVec 6) (v : FieldValues) (h : Header) (i : Fin 6) :
    ((supplyFields fm v h).get i : Int) = if supplied fm i then v.get i % 2 ^ fieldWidth i else h.get i := by
  cases hi : supplied fm i with
  | true => rw [supplyFields_get_of_supplied v h hi]; exact v.masked_get i
  | false => rw [supplyFields_get_of_not_supplied v h hi]; rfl

/-- R109: supplying the same values again changes nothing. -/
@[simp] theorem supplyFields_supplyFields (fm : BitVec 6) (v : FieldValues) (h : Header) :
    supplyFields fm v (supplyFields fm v h) = supplyFields fm v h := by
  apply Header.ext_get
  intro i
  cases hi : supplied fm i with
  | true => rw [supplyFields_get_of_supplied _ _ hi, supplyFields_get_of_supplied _ _ hi]
  | false => exact supplyFields_get_of_not_supplied _ _ hi

@[simp] theorem supplyFields_masked (fm : BitVec 6) (v : FieldValues) : supplyFields fm v v.masked = v.masked := by
  simp only [supplyFields, ite_self]

/-- R3, R100: the payload bytes of a header built from fields. -/
theorem FieldValues.masked_expBytes (v : FieldValues) : v.masked.expBytes = 32 * (v.nchan % 65536).toNat :=
  congrArg (32 * ·) (mask_toNat_eq 16 v.nchan)

/-- R3, R103: the payload bytes of an updated header. -/
theorem supplyFields_expBytes (fm : BitVec 6) (v : FieldValues) (h : Header) :
    (supplyFields fm v h).expBytes = 32 * newChannels fm v h := by
  have hchannels : (supplyFields fm v h).nchan.toNat = newChannels fm v h := by
    unfold newChannels
    split
    · rename_i hsup
      exact (supplyFields_get_of_supplied v h hsup).trans (mask_toNat_eq 16 v.nchan)
    · rename_i hsup
      exact supplyFields_get_of_not_supplied v h (Bool.eq_false_iff.mpr hsup)
  exact congrArg (32 * ·) hchannels

/-- R55: what the range check looks for. -/
theorem outOfRange_iff (fm : BitVec 6) (v : FieldValues) (i : Fin 6) :
    (supplied fm i && !inWidth (fieldWidth i) (v.get i)) = true ↔ supplied fm i = true ∧ ¬fits i (v.get i) := by
  rw [Bool.and_eq_true, Bool.not_eq_true', inWidth, decide_eq_false_iff_not]
  rfl

/-- R144: the range check finds the lowest field that does not fit. -/
theorem firstOutOfRange_of_lowestBadField {fm : BitVec 6} {v : FieldValues} {i : Fin 6}
    (hi : lowestBadField fm v i) : firstOutOfRange fm v = some i := by
  obtain ⟨hsup, hbad, hlower⟩ := hi
  have hentry : ∀ (k : Nat) (hk : k < 6), ([0, 1, 2, 3, 4, 5] : List (Fin 6))[k] = ⟨k, hk⟩ := by decide
  refine List.find?_eq_some_iff_getElem.mpr
    ⟨(outOfRange_iff fm v i).mpr ⟨hsup, hbad⟩, i.val, i.isLt, hentry i.val i.isLt, fun k hk => ?_⟩
  rw [hentry k (hk.trans i.isLt), Bool.not_eq_true', Bool.eq_false_iff, Ne, outOfRange_iff]
  exact fun hk' => hk'.2 (hlower _ hk hk'.1)

section
variable {strict : Bool} {fm : BitVec 6} {v : FieldValues} {i : Fin 6} (hstrict : strict = true)
  (hi : lowestBadField fm v i)
include hstrict hi

/-- R55: the strict mode rejects the lowest field that does not fit. -/
theorem reduceFields_rejected (h : Header) : reduceFields strict fm v h = .error (.fieldOutOfRange i (v.get i)) := by
  rw [reduceFields, if_pos hstrict, firstOutOfRange_of_lowestBadField hi]

/-- R103: so does an update. -/
theorem updatedPacket_rejected (smp : Bool) (samples : List Int) (p : Packet) :
    updatedPacket strict smp fm v samples p = .error (.fieldOutOfRange i (v.get i)) := by
  rw [updatedPacket, reduceFields_rejected hstrict hi]

/-- R100: so does a construction from all fields. -/
theorem packetOfFields_rejected (w8 : Mode) (samples : List Int) (hfm : fm = allFields) :
    packetOfFields strict w8 fm v samples = .error (.fieldOutOfRange i (v.get i)) := by
  rw [packetOfFields, if_pos hfm, reduceFields_rejected hstrict hi]

end

/-- R109: operands that were accepted are accepted again and change nothing. -/
theorem reduceFields_again {strict : Bool} {fm : BitVec 6} {v : FieldValues} {h h' : Header}
    (hr : reduceFields strict fm v h = .ok h') : reduceFields strict fm v h' = .ok h' := by
  obtain rfl := reduceFields_ok hr
  unfold reduceFields at hr ⊢
  rwa [supplyFields_supplyFields]

/-! Packets from fields and from updates (R100, R103) -/

/-- R100: with all fields and accepted values a construction is the packing of the samples under the masked header. -/
theorem packetOfFields_accepted {s : State} (w8 : Mode) (samples : List Int) (ha : fieldsAccepted allFields s) :
    packetOfFields s.sf w8 allFields s.ports.fin samples =
      (pack w8 samples s.ports.fin.masked.expBytes).map fun pay =>
        { hdr := s.ports.fin.masked, pay := pay, mode := w8 } := by
  rw [packetOfFields, if_pos rfl, reduceFields_accepted ha, supplyFields_masked]
  dsimp only
  cases pack w8 samples s.ports.fin.masked.expBytes <;> rfl

section
variable {s : State} {fm : BitVec 6} (ha : fieldsAccepted fm s) (samples : List Int)
include ha

/-- R103: with samples and accepted values an update is the packing of the samples under the new header, in the mode the
packet has. -/
theorem updatedPacket_samples (p : Packet) :
    updatedPacket s.sf true fm s.ports.fin samples p =
      (pack p.mode samples (supplyFields fm s.ports.fin p.hdr).expBytes).map fun pay =>
        { hdr := supplyFields fm s.ports.fin p.hdr, pay := pay, mode := p.mode } := by
  rw [updatedPacket, reduceFields_accepted ha]
  dsimp only
  cases pack p.mode samples (supplyFields fm s.ports.fin p.hdr).expBytes <;> rfl

/-- R103: without samples the kept payload must have the length the new header implies. -/
theorem updatedPacket_kept_mismatch {p : Packet} {n : Nat} (hn : (supplyFields fm s.ports.fin p.hdr).expBytes = n)
    (hlen : p.pay.length ≠ n) :
    updatedPacket s.sf false fm s.ports.fin samples p =
      .error (.payloadLengthMismatch n (components p.mode n) (components p.mode p.pay.length)) := by
  subst hn
  rw [updatedPacket, reduceFields_accepted ha]
  exact if_neg hlen

end

/-- R109: an updated packet is updated to itself. -/
theorem updatedPacket_again {strict smp : Bool} {fm : BitVec 6} {v : FieldValues} {samples : List Int} {p q : Packet}
    (h : updatedPacket strict smp fm v samples p = .ok q) : updatedPacket strict smp fm v samples q = .ok q := by
  unfold updatedPacket at h
  split at h
  · cases h
  · rename_i hr
    have hagain := reduceFields_again hr
    split at h
    · split at h
      · cases h
      · rename_i hsmp _ pay hpack
        cases h
        simp only [updatedPacket, hagain, hsmp, hpack, if_true]
    · split at h
      · rename_i hsmp hlen
        cases h
        simp only [updatedPacket, hagain, hsmp, hlen, if_true]
        rfl
      · cases h

/-! Packets from bytes (R101, R102, R58) -/

/-- R11: `numChannels` has 16 bits, so no payload is longer than the default capacity (R4). -/
theorem Header.expBytes_le (h : Header) : h.expBytes ≤ 2097120 := by
  have hlt : h.nchan.toNat < 65536 := h.nchan.isLt
  show 32 * h.nchan.toNat ≤ 2097120
  omega

/-- R101: the packet at the front of a buffer: the decoded header, and behind it the payload bytes it implies. -/
def parsedPacket (w8 : Mode) (bytes : List Byte) : Packet :=
  { hdr := decodeHeader bytes,
    pay := (bytes.drop Config.headerBytes).take (decodeHeader bytes).expBytes,
    mode := w8 }

theorem packetOfBytes_short {bytes : List Byte} (strict : Bool) (w8 : Mode) (hshort : bytes.length < 16) :
    packetOfBytes strict w8 bytes = .error (.truncatedPacket 16 bytes.length) := by
  have hdecode : hdrDecode bytes = .error (.truncatedPacket 16 bytes.length) := if_pos hshort
  rw [packetOfBytes, hdecode]

section
variable {bytes : List Byte} (hheader : 16 ≤ bytes.length)
include hheader

theorem hdrDecode_of_le : hdrDecode bytes = .ok (decodeHeader bytes) := if_neg (Nat.not_lt.mpr hheader)

/-- R54, R101: the payload bytes a buffer's header implies. -/
theorem decodeHeader_expBytes : (decodeHeader bytes).expBytes = 32 * wireField bytes 2 :=
  congrArg (32 * ·) (decodeHeader_get_eq_wireField hheader 2)

variable (strict : Bool) (w8 : Mode)

theorem packetOfBytes_truncated (hlen : bytes.length < 16 + (decodeHeader bytes).expBytes) :
    packetOfBytes strict w8 bytes =
      .error (.truncatedPacket (16 + (decodeHeader bytes).expBytes) bytes.length) := by
  rw [packetOfBytes, hdrDecode_of_le hheader]
  exact if_pos hlen

theorem packetOfBytes_excess (hlen : 16 + (decodeHeader bytes).expBytes < bytes.length) :
    packetOfBytes true w8 bytes = .error (.excessLength (16 + (decodeHeader bytes).expBytes) bytes.length) := by
  rw [packetOfBytes, hdrDecode_of_le hheader]
  exact (if_neg hlen.asymm).trans (if_pos ⟨rfl, hlen⟩)

theorem packetOfBytes_ok (hlen : 16 + (decodeHeader bytes).expBytes ≤ bytes.length)
    (hexact : strict = true → bytes.length = 16 + (decodeHeader bytes).expBytes) :
    packetOfBytes strict w8 bytes = .ok (parsedPacket w8 bytes) := by
  rw [packetOfBytes, hdrDecode_of_le hheader]
  exact (if_neg (Nat.not_lt.mpr hlen)).trans (if_neg fun h => h.2.ne' (hexact h.1))

/-- R51, R77: the bytes of the packet at the front of a buffer are the front of the buffer. -/
theorem packetBytes_parsedPacket :
    packetBytes (parsedPacket w8 bytes) = bytes.take (16 + (decodeHeader bytes).expBytes) := by
  rw [List.take_add, ← encodeHeader_decodeHeader hheader]
  rfl

end

theorem packetBytes_length (p : Packet) : (packetBytes p).length = 16 + p.pay.length := by
  rw [packetBytes, List.length_append, encodeHeader_length]

/-- R36: payload byte `k` of a packet stands at wire offset `16 + k`. -/
theorem packetBytes_getElem?_payload (p : Packet) (k : Nat) : (packetBytes p)[16 + k]? = p.pay[k]? := by
  rw [packetBytes, List.getElem?_append_right (by rw [encodeHeader_length]; omega), encodeHeader_length,
    Nat.add_sub_cancel_left]

section
variable {p : Packet} {bytes : List Byte} (hprefix : packetBytes p <+: bytes)
include hprefix

theorem headerBytes_le_of_prefix : 16 ≤ bytes.length := by
  have hle := hprefix.length_le
  rw [packetBytes_length] at hle
  omega

/-- R77: a buffer that begins with the bytes of a packet begins with the packet's header. -/
theorem decodeHeader_of_prefix : decodeHeader bytes = p.hdr := by
  have htake : encodeHeader (decodeHeader bytes) = encodeHeader p.hdr := by
    rw [encodeHeader_decodeHeader (headerBytes_le_of_prefix hprefix)]
    exact (List.prefix_iff_eq_take.mp ((List.prefix_append (encodeHeader p.hdr) p.pay).trans hprefix)).symm
  rw [← decodeHeader_encodeHeader (decodeHeader bytes), htake, decodeHeader_encodeHeader]

theorem wireField_of_prefix (i : Fin 6) : wireField bytes i = p.hdr.get i := by
  rw [← decodeHeader_get_eq_wireField (headerBytes_le_of_prefix hprefix), decodeHeader_of_prefix hprefix]

end

/-- R108: the packet at the front of a buffer that begins with the bytes of a well-formed packet is that packet. -/
theorem parsedPacket_of_prefix {p : Packet} {bytes : List Byte} (hwf : p.pay.length = p.hdr.expBytes)
    (hprefix : packetBytes p <+: bytes) : parsedPacket p.mode bytes = p := by
  obtain ⟨rest, rfl⟩ := hprefix
  have hhdr := decodeHeader_of_prefix (List.prefix_append (packetBytes p) rest)
  have hdrop : (packetBytes p ++ rest).drop 16 = p.pay ++ rest := by
    rw [packetBytes, List.append_assoc]
    exact List.drop_left' (encodeHeader_length p.hdr)
  have hpay : ((packetBytes p ++ rest).drop 16).take p.hdr.expBytes = p.pay := by
    rw [hdrop, ← hwf, List.take_left]
  calc parsedPacket p.mode (packetBytes p ++ rest)
    _ = { hdr := p.hdr, pay := ((packetBytes p ++ rest).drop 16).take p.hdr.expBytes, mode := p.mode } := by
      rw [parsedPacket, hhdr]; rfl
    _ = p := by rw [hpay]

/-- R101, R108, R110: a parse accepts exactly the buffers that begin with the bytes of a well-formed packet, in strict
mode only those bytes themselves, and answers that packet in the mode of `w8`. -/
theorem packetOfBytes_eq_ok_iff {strict : Bool} {w8 : Mode} {bytes : List Byte} {p : Packet} :
    packetOfBytes strict w8 bytes = .ok p ↔
      p.mode = w8 ∧ p.pay.length = p.hdr.expBytes ∧ packetBytes p <+: bytes ∧
        (strict = true → bytes.length = (packetBytes p).length) := by
  constructor
  · intro h
    refine ⟨packetOfBytes_mode h, (Memory.wf_iff _ _).mp (packetOfBytes_wf h), ?_⟩
    obtain hshort | hheader := Nat.lt_or_ge bytes.length 16
    · cases (packetOfBytes_short strict w8 hshort).symm.trans h
    obtain htrunc | hlen := Nat.lt_or_ge bytes.length (16 + (decodeHeader bytes).expBytes)
    · cases (packetOfBytes_truncated hheader strict w8 htrunc).symm.trans h
    have hexact : strict = true → bytes.length = 16 + (decodeHeader bytes).expBytes := by
      rintro rfl
      obtain hexcess | hle := Nat.lt_or_ge (16 + (decodeHeader bytes).expBytes) bytes.length
      · cases (packetOfBytes_excess hheader w8 hexcess).symm.trans h
      · exact hle.antisymm hlen
    cases (packetOfBytes_ok hheader strict w8 hlen hexact).symm.trans h
    rw [packetBytes_parsedPacket hheader, List.length_take_of_le hlen]
    exact ⟨List.take_prefix _ _, hexact⟩
  · rintro ⟨rfl, hwf, hprefix, hexact⟩
    have hle := hprefix.length_le
    rw [packetBytes_length, hwf, ← decodeHeader_of_prefix hprefix] at hle hexact
    rw [packetOfBytes_ok (headerBytes_le_of_prefix hprefix) strict p.mode hle hexact,
      parsedPacket_of_prefix hwf hprefix]

/-- R108: the bytes of a parsed packet are the bytes it was parsed from. -/
theorem packetBytes_of_packetOfBytes {strict : Bool} {w8 : Mode} {bytes : List Byte} {p : Packet}
    (h : packetOfBytes strict w8 bytes = .ok p) : packetBytes p = bytes.take (16 + 32 * p.hdr.nchan.toNat) := by
  obtain ⟨_, hwf, hprefix, _⟩ := packetOfBytes_eq_ok_iff.mp h
  have hlength : (packetBytes p).length = 16 + 32 * p.hdr.nchan.toNat := by
    rw [packetBytes_length, hwf]
    rfl
  rw [← hlength]
  exact List.prefix_iff_eq_take.mp hprefix

/-- R110: in legacy mode a buffer that agrees with a parsed one in the packet's bytes is parsed to the same packet. -/
theorem packetOfBytes_of_same_front {strict : Bool} {w8 : Mode} {bytes bytes' : List Byte} {p : Packet}
    (h : packetOfBytes strict w8 bytes = .ok p)
    (hfront : bytes'.take (16 + 32 * wireField bytes 2) = bytes.take (16 + 32 * wireField bytes 2)) :
    packetOfBytes false w8 bytes' = .ok p := by
  obtain ⟨hmode, hwf, hprefix, _⟩ := packetOfBytes_eq_ok_iff.mp h
  have hprefix' : packetBytes p <+: bytes' := by
    rw [wireField_of_prefix hprefix] at hfront
    rw [packetBytes_of_packetOfBytes h]
    exact hfront ▸ List.take_prefix _ _
  exact packetOfBytes_eq_ok_iff.mpr ⟨hmode, hwf, hprefix', nofun⟩

/-! Commands that write a payload anew (R13, R114) -/

/-- R13, R114: command `i` passes its checks in state `s` and writes a payload anew, that of packet `p`. -/
inductive WritesPayload (s : State) : Instr → Packet → Prop where
  /-- R100 -/
  | built {w8 : Mode} {fm : BitVec 6} {p : Packet}
    (hp : packetOfFields s.sf w8 fm s.ports.fin s.ports.sin = .ok p) : WritesPayload s (.fromFields w8 fm) p
  /-- R101 -/
  | parsed {w8 : Mode} {p : Packet} (hp : packetOfBytes s.sl w8 s.ports.bin = .ok p) : WritesPayload s (.fromBytes w8) p
  /-- R103, with samples -/
  | repacked {fm : BitVec 6} {p q : Packet} (hp : s.ctx = some p)
    (hq : updatedPacket s.sf true fm s.ports.fin s.ports.sin p = .ok q) : WritesPayload s (.update true fm) q

/-- R103: an update whose checks pass stores the updated packet; with samples its payload is written anew. -/
theorem exec_update_ok {smp : Bool} {fm : BitVec 6} {s : State} {p q : Packet} (hp : s.ctx = some p)
    (hq : updatedPacket s.sf smp fm s.ports.fin s.ports.sin p = .ok q) :
    exec (.update smp fm) s = if smp then storePacket q s else complete .none (s.setCtx (some q)) := by
  calc exec (.update smp fm) s
    _ = execUpdate smp fm s := rfl
    _ = _ := by rw [execUpdate, withPacket_some hp, hq]

/-- R103, R146: an update that fails a check changes nothing. -/
theorem exec_update_error {smp : Bool} {fm : BitVec 6} {s : State} {p : Packet} {e : Error} (hp : s.ctx = some p)
    (he : updatedPacket s.sf smp fm s.ports.fin s.ports.sin p = .error e) :
    exec (.update smp fm) s = .next { s with result := some (.error e) } := by
  calc exec (.update smp fm) s
    _ = execUpdate smp fm s := rfl
    _ = _ := by rw [execUpdate, withPacket_some hp, he]; exact raise_eq e s

/-- R147: a construction that fails a check leaves no packet and changes nothing else. -/
theorem construct_error {r : Except Error Packet} {e : Error} (s : State) (he : r = .error e) :
    construct r s = .next { s with ctx := none, result := some (.error e) } := by
  rw [he]
  exact raiseConstruction_eq e s

/-- R114: what is left of a command that writes a payload anew is to store the packet. -/
theorem WritesPayload.exec_eq {s : State} {i : Instr} {p : Packet} (h : WritesPayload s i p) :
    exec i s = storePacket p s := by
  cases h with
  | @built w8 fm _ hp =>
    calc exec (.fromFields w8 fm) s
      _ = construct (packetOfFields s.sf w8 fm s.ports.fin s.ports.sin) s := rfl
      _ = _ := by rw [hp]; rfl
  | @parsed w8 _ hp =>
    calc exec (.fromBytes w8) s
      _ = construct (packetOfBytes s.sl w8 s.ports.bin) s := rfl
      _ = _ := by rw [hp]; rfl
  | repacked hp hq => exact exec_update_ok hp hq

/-- R114: with room for the payload it completes. -/
theorem WritesPayload.exec_fits {s : State} {i : Instr} {p : Packet} (h : WritesPayload s i p)
    (hfit : p.pay.length ≤ s.cap) : exec i s = .next { s with ctx := some p, result := some (.ok .none) } :=
  h.exec_eq.trans (storePacket_fits hfit)

/-- R114: it is refused only where there is no room. -/
theorem WritesPayload.of_refused {s : State} {i : Instr} {p : Packet} {r : Refusal} (h : WritesPayload s i p)
    (hr : exec i s = .refused r) : s.cap < p.pay.length ∧ r = .payloadCapacity p.pay.length s.cap := by
  obtain hbig | hfit := Nat.lt_or_ge s.cap p.pay.length
  · cases (h.exec_eq.trans (storePacket_refuses hbig)).symm.trans hr
    exact ⟨hbig, rfl⟩
  · cases (h.exec_fits hfit).symm.trans hr

/-- R114: no check reads the capacity. -/
theorem WritesPayload.with_cap {s : State} {i : Instr} {p : Packet} (h : WritesPayload s i p) (c : Nat) :
    WritesPayload { s with cap := c } i p := by
  cases h with
  | built hp => exact .built hp
  | parsed hp => exact .parsed hp
  | repacked hp hq => exact .repacked hp hq

/-- R111: the payload written has the length its header implies. -/
theorem WritesPayload.wf {s : State} {i : Instr} {p : Packet} (h : WritesPayload s i p) :
    Memory.wf p.hdr p.pay = true := by
  cases h with
  | built hp => exact packetOfFields_wf hp
  | parsed hp => exact packetOfBytes_wf hp
  | repacked _ hq => exact updatedPacket_wf hq

/-- R111: what a construction or an update leaves when it ends `OK`: a payload written anew, or the one an update
without samples checked and kept. -/
theorem exec_ok_packet {i : Instr} {s t : State}
    (hi : (∃ w8 fm, i = .fromFields w8 fm) ∨ (∃ w8, i = .fromBytes w8) ∨ (∃ smp fm, i = .update smp fm))
    (h : exec i s = .next t) (hok : t.result = some (.ok .none)) :
    ∃ p, t.ctx = some p ∧ Memory.wf p.hdr p.pay = true ∧ ((∀ fm, i ≠ .update false fm) → WritesPayload s i p) := by
  obtain ⟨w8, fm, rfl⟩ | ⟨w8, rfl⟩ | ⟨smp, fm, rfl⟩ := hi
  · obtain ⟨p, hp, _, rfl⟩ | ⟨e, _, rfl⟩ := construct_next h
    · exact ⟨p, rfl, packetOfFields_wf hp, fun _ => .built hp⟩
    · cases hok
  · obtain ⟨p, hp, _, rfl⟩ | ⟨e, _, rfl⟩ := construct_next h
    · exact ⟨p, rfl, packetOfBytes_wf hp, fun _ => .parsed hp⟩
    · cases hok
  · obtain ⟨_, rfl⟩ | ⟨p, hp, ⟨e, _, rfl⟩ | ⟨q, hq, _, rfl⟩⟩ := execUpdate_next h
    · cases hok
    · cases hok
    · refine ⟨q, rfl, updatedPacket_wf hq, fun hsmp => ?_⟩
      cases smp with
      | true => exact .repacked hp hq
      | false => exact absurd rfl (hsmp fm)

/-- R114: everything a refusal can be: the command would write a payload that is longer than the capacity. -/
theorem exec_refused {i : Instr} {s : State} {r : Refusal} (h : exec i s = .refused r) :
    ∃ p, WritesPayload s i p ∧ s.cap < p.pay.length ∧ r = .payloadCapacity p.pay.length s.cap := by
  suffices hwrites : ∃ p, WritesPayload s i p by
    obtain ⟨p, hw⟩ := hwrites
    exact ⟨p, hw, hw.of_refused h⟩
  cases i with
  | hdrEncode | unpackNibbles | unpackBytes | cfgWrite | cfgRead | reset => cases h
  | hdrDecode | packNibbles | packBytes =>
    obtain ⟨_, hres⟩ := finish_eq _ s
    cases hres.symm.trans h
  | toBytes | decodedSamples | readFields =>
    obtain ⟨_, hres⟩ := withPacket_complete_eq _ s
    cases hres.symm.trans h
  | fromFields w8 fm =>
    cases hp : packetOfFields s.sf w8 fm s.ports.fin s.ports.sin with
    | ok p => exact ⟨p, .built hp⟩
    | error e => cases (construct_error s hp).symm.trans h
  | fromBytes w8 =>
    cases hp : packetOfBytes s.sl w8 s.ports.bin with
    | ok p => exact ⟨p, .parsed hp⟩
    | error e => cases (construct_error s hp).symm.trans h
  | update smp fm =>
    obtain hp | ⟨p, hp⟩ := s.ctx_cases
    · cases (withPacket_none hp _).symm.trans h
    · cases hq : updatedPacket s.sf smp fm s.ports.fin s.ports.sin p with
      | error e => cases (exec_update_error hp hq).symm.trans h
      | ok q =>
        cases smp with
        | true => exact ⟨q, .repacked hp hq⟩
        | false => cases (exec_update_ok hp hq).symm.trans h

/-! Commands that read the packet (R102, R104, R105) -/

theorem exec_toBytes_some {s : State} {p : Packet} (hp : s.ctx = some p) :
    exec .toBytes s = .next { s with result := some (.ok (.bout (packetBytes p))) } := withPacket_some hp _

/-- R18: a packet of a state that meets the invariant has the payload its header implies. -/
theorem pay_length_of_wf {s : State} {p : Packet} (hp : s.ctx = some p) (hwf : s.wf = true) :
    p.pay.length = 32 * p.hdr.nchan.toNat := by
  obtain ⟨_, _, hpacket⟩ := resetMeetsPayloadInvariant
  obtain ⟨_, hiff⟩ := hpacket s p hp
  exact (hiff.mp hwf).1

/-- R86: the pair of byte `k`. -/
theorem unpackNibbles_getElem? {bytes : List Byte} {k : Nat} {b : Byte} (hb : bytes[k]? = some b) :
    (unpackNibbles bytes)[k]? = some (nibbleValue (b.toNat / 16), nibbleValue (b.toNat % 16)) := by
  rw [unpackNibbles, List.getElem?_map, hb, ← cs8Pair_eq]
  rfl

/-- R88: the component of byte `k`. -/
theorem unpackBytes_getElem? {bytes : List Byte} {k : Nat} {b : Byte} (hb : bytes[k]? = some b) :
    (unpackBytes bytes)[k]? = some (b.toNat : Int) := by
  rw [unpackBytes, List.getElem?_map, hb]
  rfl

/-! The obligations -/

/-- Settles O22: the construction packs the samples under the masked header, and stores what it packs. -/
theorem fromFieldsConstructs : Obligations.FromFieldsConstructs := by
  rintro w8 s n rfl ha hcount hfit
  rw [← FieldValues.masked_expBytes] at hcount hfit ⊢
  obtain ⟨pay, hpack, hlen, hpacks⟩ := pack_right_count hcount
  have hp := packetOfFields_accepted w8 s.ports.sin ha
  rw [hpack] at hp
  exact ⟨_, (WritesPayload.built hp).exec_fits (hlen.trans_le hfit), rfl, s.ports.fin.masked_get, hlen, hpacks⟩

/-- Settles O23: the mask, the range check and the count, each where the checks before it pass. -/
theorem fromFieldsFailsInOrder : Obligations.FromFieldsFailsInOrder := by
  refine fun w8 fm s => ⟨fun hfm => ?missing, fun hfm hsf i hi => ?range, fun hfm ha n hn hcount => ?count⟩
  case missing =>
    refine ⟨~~~fm, fun i => ?_, exec_fromFields_incomplete w8 s hfm⟩
    rw [BitVec.getLsbD_not, decide_eq_true i.isLt, Bool.true_and]
    rfl
  case range => exact construct_error s (packetOfFields_rejected hsf hi w8 s.ports.sin hfm)
  case count =>
    subst hfm
    rw [← FieldValues.masked_expBytes] at hn
    have hp := packetOfFields_accepted w8 s.ports.sin ha
    rw [← hn, pack_wrong_count hcount] at hp
    exact construct_error s hp

/-- Settles O24: the packet at the front of the buffer is stored. -/
theorem fromBytesConstructs : Obligations.FromBytesConstructs := by
  rintro w8 s n rfl hheader hlen hexact hfit
  rw [← decodeHeader_expBytes hheader] at hlen hexact hfit ⊢
  have hpay : (parsedPacket w8 s.ports.bin).pay.length = (decodeHeader s.ports.bin).expBytes :=
    take_drop_length hlen
  refine ⟨_, (WritesPayload.parsed (packetOfBytes_ok hheader s.sl w8 hlen hexact)).exec_fits (hpay.trans_le hfit), rfl,
    decodeHeader_get_eq_wireField hheader, hpay, fun k hk => ?_⟩
  rw [parsedPacket, List.getElem?_take_of_lt hk, List.getElem?_drop]
  rfl

/-- Settles O25: the two lengths and the excess, each where the checks before it pass. -/
theorem fromBytesFailsInOrder : Obligations.FromBytesFailsInOrder := by
  rintro w8 s n rfl
  refine ⟨fun hshort => ?short, fun hheader hlen => ?truncated, fun hheader hlen hsl => ?excess⟩
  case short => exact construct_error s (packetOfBytes_short s.sl w8 hshort)
  case truncated =>
    rw [← decodeHeader_expBytes hheader] at hlen ⊢
    exact construct_error s (packetOfBytes_truncated hheader s.sl w8 hlen)
  case excess =>
    rw [← decodeHeader_expBytes hheader] at hlen ⊢
    exact construct_error s (hsl ▸ packetOfBytes_excess hheader w8 hlen)

/-- Settles O26: by O24 and O25 the buffer's length decides the status; a buffer with the same front is parsed to the
same packet. -/
theorem fromBytesReadsOnlyThePacket : Obligations.FromBytesReadsOnlyThePacket := by
  intro w8 s hsl hcap
  have hok (hlen : 16 ≤ s.ports.bin.length ∧ 16 + 32 * wireField s.ports.bin 2 ≤ s.ports.bin.length) :
      ∃ t, exec (.fromBytes w8) s = .next t ∧ t.result = some (.ok .none) := by
    obtain ⟨hheader, hpay⟩ := hlen
    have hfit : 32 * wireField s.ports.bin 2 ≤ s.cap := by
      rw [hcap, ← decodeHeader_expBytes hheader]
      exact Header.expBytes_le _
    obtain ⟨p, hex, _⟩ := fromBytesConstructs w8 s _ rfl hheader hpay (fun h => nomatch hsl.symm.trans h) hfit
    exact ⟨_, hex, rfl⟩
  have htruncated (hlen : ¬(16 ≤ s.ports.bin.length ∧ 16 + 32 * wireField s.ports.bin 2 ≤ s.ports.bin.length)) :
      ∃ t need avail, exec (.fromBytes w8) s = .next t ∧
        t.result = some (.error (.truncatedPacket need avail)) := by
    obtain ⟨hshort, htrunc, _⟩ := fromBytesFailsInOrder w8 s _ rfl
    obtain h | h := Nat.lt_or_ge s.ports.bin.length 16
    · exact ⟨_, _, _, hshort h, rfl⟩
    · exact ⟨_, _, _, htrunc h (Nat.not_le.mp fun hpay => hlen ⟨h, hpay⟩), rfl⟩
  have hexclusive : ¬((∃ t, exec (.fromBytes w8) s = .next t ∧ t.result = some (.ok .none)) ∧
      ∃ t need avail, exec (.fromBytes w8) s = .next t ∧
        t.result = some (.error (.truncatedPacket need avail))) := by
    rintro ⟨⟨t, ht, hr⟩, t', _, _, ht', hr'⟩
    cases ht.symm.trans ht'
    cases hr.symm.trans hr'
  refine ⟨⟨fun h => ?_, hok⟩, ⟨fun h hlen => hexclusive ⟨hok hlen, h⟩, htruncated⟩, ?sameFront⟩
  · by_contra hlen
    exact hexclusive ⟨h, htruncated hlen⟩
  case sameFront =>
    intro u t husl hucap hex hres hfront
    obtain ⟨p, hp, hfit, rfl⟩ | ⟨e, _, rfl⟩ := construct_next hex
    · have hup : packetOfBytes u.sl w8 u.ports.bin = .ok p := husl.symm ▸ packetOfBytes_of_same_front hp hfront
      exact (WritesPayload.parsed hup).exec_fits (by rwa [hucap, ← hcap])
    · cases hres

/-- Settles O27: the bytes of the packet begin with themselves, so their fields are the header's. -/
theorem toBytesGivesHeaderThenPayload : Obligations.ToBytesGivesHeaderThenPayload := by
  refine ⟨rfl, fun s => ⟨fun p hp => ?_, fun hp => withPacket_none hp _⟩⟩
  refine ⟨_, exec_toBytes_some hp, packetBytes_length p, fun hwf => ?_, wireField_of_prefix List.prefix_rfl,
    fun k _ => packetBytes_getElem?_payload p k⟩
  rw [packetBytes_length, pay_length_of_wf hp hwf]

/-- Settles O28: the header is the supplied fields over the old one. -/
theorem updateFieldsKeepsTheRest : Obligations.UpdateFieldsKeepsTheRest := by
  intro fm s p hp ha hlen
  rw [← supplyFields_expBytes] at hlen
  exact ⟨_, exec_update_fields hp ha hlen, supplyFields_get fm s.ports.fin p.hdr⟩

/-- Settles O29: the update packs the samples under the new header, and stores what it packs. -/
theorem updateSamplesRepacksPayload : Obligations.UpdateSamplesRepacksPayload := by
  rintro fm s p n hp ha rfl hcount hfit
  rw [← supplyFields_expBytes] at hcount hfit ⊢
  obtain ⟨pay, hpack, hlen, hpacks⟩ := pack_right_count hcount
  have hq := updatedPacket_samples ha s.ports.sin p
  rw [hpack] at hq
  exact ⟨_, (WritesPayload.repacked hp hq).exec_fits (hlen.trans_le hfit), rfl, hlen, hpacks,
    supplyFields_get fm s.ports.fin p.hdr⟩

/-- Settles O30: no packet, the range check and the count, each where the checks before it pass. -/
theorem updateFailsInOrder : Obligations.UpdateFailsInOrder := by
  refine fun smp fm s => ⟨fun hp => withPacket_none hp _, fun p hp =>
    ⟨fun hsf i hi => exec_update_error hp (updatedPacket_rejected hsf hi smp s.ports.sin p), ?count⟩⟩
  rintro ha n hn actual rfl hcount
  rw [← supplyFields_expBytes] at hn
  cases smp with
  | true =>
    have hq := updatedPacket_samples ha s.ports.sin p
    rw [← hn, pack_wrong_count hcount] at hq
    exact exec_update_error hp hq
  | false => exact exec_update_error hp (updatedPacket_kept_mismatch ha s.ports.sin hn.symm hcount)

/-- Settles O31: a failed update leaves the packet it read, and an updated packet is updated to itself. -/
theorem updateIsIdempotent : Obligations.UpdateIsIdempotent := by
  intro smp fm s t h
  obtain ⟨hp, rfl⟩ | ⟨p, hp, ⟨e, he, rfl⟩ | ⟨q, hq, hfit, rfl⟩⟩ := execUpdate_next h
  · exact withPacket_none hp _
  · exact exec_update_error hp he
  · have hagain := updatedPacket_again hq
    cases smp with
    | true => exact WritesPayload.exec_fits (.repacked rfl hagain) (hfit rfl)
    | false => exact exec_update_ok rfl hagain

/-- Settles O32: the payload is unpacked byte by byte in the packet's mode. -/
theorem decodedSamplesReadsThePayload : Obligations.DecodedSamplesReadsThePayload := by
  refine ⟨rfl, fun s => ⟨fun q hq hmode => ?pairs, fun q hq hmode => ?flat, fun hp => withPacket_none hp _⟩⟩
  case pairs =>
    have hex := exec_decodedSamples_some hq
    rw [hmode] at hex
    have hlen : (unpackNibbles q.pay).length = q.pay.length := List.length_map ..
    refine ⟨_, hex, hlen, fun k b => unpackNibbles_getElem?, fun hwf => ?_⟩
    have hpay := pay_length_of_wf hq hwf
    refine ⟨hlen.trans hpay, fun c t p hc ht hp => ?_⟩
    have hlt : 32 * c + 2 * t + p < q.pay.length := by omega
    have hbyte := List.getElem?_eq_getElem hlt
    exact ⟨_, hbyte, by rw [sampleIndex_eq, unpackNibbles_getElem? hbyte]⟩
  case flat =>
    have hex := exec_decodedSamples_some hq
    rw [hmode] at hex
    have hlen : (unpackBytes q.pay).length = q.pay.length := List.length_map ..
    exact ⟨_, hex, hlen, fun hwf => hlen.trans (pay_length_of_wf hq hwf), fun k b => unpackBytes_getElem?⟩

/-- Settles O33: the header of the packet, or `NotConstructed`. -/
theorem readFieldsGivesStoredHeader : Obligations.ReadFieldsGivesStoredHeader :=
  ⟨rfl, fun _ => ⟨fun _ hp => withPacket_some hp _, fun hp => withPacket_none hp _⟩⟩

/-- Settles O34: both ways by the buffers a parse accepts, those that begin with the bytes of the packet. -/
theorem packetRoundTrip : Obligations.PacketRoundTrip := by
  refine ⟨fun w8 fm s t u p bytes hbuild ht hwrite hbin hcap => ?readBack, fun w8 s t p hread ht => ?writeBack⟩
  case readBack =>
    cases (exec_toBytes_some ht).symm.trans hwrite
    obtain ⟨p', hp, hfit, hs⟩ | ⟨e, _, hs⟩ := construct_next hbuild
    · cases Option.some.inj (congrArg State.ctx hs)
      have hprefix : packetBytes p <+: u.ports.bin := by rw [hbin]
      have hparse : packetOfBytes u.sl w8 u.ports.bin = .ok p := packetOfBytes_eq_ok_iff.mpr
        ⟨packetOfFields_mode hp, (Memory.wf_iff _ _).mp (packetOfFields_wf hp), hprefix, fun _ => by rw [hbin]⟩
      exact (WritesPayload.parsed hparse).exec_fits (hfit.trans hcap)
    · cases congrArg State.ctx hs
  case writeBack =>
    obtain ⟨p', hp, _, hs⟩ | ⟨e, _, hs⟩ := construct_next hread
    · cases Option.some.inj (congrArg State.ctx hs)
      rw [exec_toBytes_some ht, packetBytes_of_packetOfBytes hp]
    · cases congrArg State.ctx hs

/-- Settles O35: each of the three leaves a payload of the length its header implies. -/
theorem payloadSizeFollowsChannels : Obligations.PayloadSizeFollowsChannels := by
  intro i s t hi h hok
  obtain ⟨p, hp, hwf, _⟩ := exec_ok_packet hi h hok
  have hpay : p.pay.length = 32 * p.hdr.nchan.toNat := (Memory.wf_iff _ _).mp hwf
  exact ⟨p, _, hp, hpay, exec_toBytes_some hp, by rw [packetBytes_length, hpay]⟩

/-- Settles O36: only a command that writes a payload anew is refused, and its checks do not read the capacity. -/
theorem refusedOnlyBeyondCapacity : Obligations.RefusedOnlyBeyondCapacity := by
  refine ⟨fun i s r h => ?refused, fun i s c p hi hex hbig => ?beyond, fun i s r hcap h => ?default,
    fun fm s r h => ?kept⟩
  case refused =>
    obtain ⟨p, hw, hbig, hr⟩ := exec_refused h
    exact ⟨p, hr, hbig, fun c hfit => (hw.with_cap c).exec_fits hfit⟩
  case beyond =>
    have hnew : ∀ fm, i ≠ .update false fm := by
      rintro fm rfl
      simp at hi
    have hi' : (∃ w8 fm, i = .fromFields w8 fm) ∨ (∃ w8, i = .fromBytes w8) ∨ (∃ smp fm, i = .update smp fm) :=
      hi.imp_right (Or.imp_right fun ⟨fm, h⟩ => ⟨true, fm, h⟩)
    obtain ⟨q, hq, _, hw⟩ := exec_ok_packet hi' hex rfl
    cases hq
    have hw' : WritesPayload s i p := (hw hnew).with_cap s.cap
    exact hw'.exec_eq.trans (storePacket_refuses hbig)
  case default =>
    obtain ⟨p, hw, hbig, _⟩ := exec_refused h
    rw [hcap, (Memory.wf_iff _ _).mp hw.wf] at hbig
    exact hbig.not_ge p.hdr.expBytes_le
  case kept =>
    obtain ⟨p, hw, _⟩ := exec_refused h
    cases hw

/-- Settles O45: the frames of `UPDATE`'s row of R13; the payload bytes are those of the packet, where there is one. -/
theorem updateFrame : Obligations.UpdateFrame := by
  intro smp fm s t h
  obtain ⟨hcap, hports, hstream⟩ := exec_interface_frame h
  have hcon := exec_con_frame h rfl
  refine ⟨exec_cfg_frame h rfl, hcap, hports, hstream, hcon, fun p q hp hq => ?packet, fun hsmp k => ?payload⟩
  case packet =>
    obtain ⟨hhdr, _, hmode⟩ := exec_packet_frame h hp hq
    exact ⟨hmode rfl, hhdr⟩
  case payload =>
    obtain hp | ⟨p, hp⟩ := s.ctx_cases
    · have hq := (State.con_eq_false_iff t).mp (hcon.trans ((State.con_eq_false_iff s).mpr hp))
      rw [State.payByte, State.payByte, hp, hq]
    · have hq : t.ctx.isSome = true := hcon.trans (by rw [State.con, hp]; rfl)
      obtain ⟨q, hq⟩ := Option.isSome_iff_exists.mp hq
      obtain ⟨_, hpay, _⟩ := exec_packet_frame h hp hq
      rw [State.payByte, State.payByte, hp, hq, Option.bind_some, Option.bind_some, hpay hsmp]

end Sys2Proof.Machine
end

section
/-!
PROOFS. The family 43_control_ops.md: `CFG_WRITE`, `CFG_READ` and `RESET` (R130 to R132). Each completes in every state;
its one rule names the next state, and the statements are read off the rule.
-/

namespace Sys2Proof.Machine

/-! The rule of each command (R130 to R132) -/

/-- R130: both options are written, and the result ports. -/
theorem exec_cfgWrite (c : BitVec 2) (s : State) :
    exec (.cfgWrite c) s = .next { s with cfg := c, result := some (.ok .none) } :=
  complete_eq .none (s.setCfg c)

/-- R131: the options stand on `COUT`, and nothing but the result ports is written. -/
theorem exec_cfgRead (s : State) : exec .cfgRead s = .next { s with result := some (.ok (.cout s.cfg)) } :=
  complete_eq (.cout s.cfg) s

/-- R132: context and options are cleared, and the result ports written. -/
theorem exec_reset (s : State) : exec .reset s = .next { s with ctx := none, cfg := 0, result := some (.ok .none) } :=
  complete_eq .none ((s.setCtx none).setCfg 0)

/-- R24, R132: clearing context and options that are clear leaves only the result written. -/
theorem State.clear_of_clear {s : State} (hctx : s.ctx = none) (hcfg : s.cfg = 0) (r : Option Result) :
    { s with ctx := none, cfg := 0, result := r } = { s with result := r } := by
  rw [hctx, hcfg]

/-- R62, R63: the word of `CFG_WRITE` is opcode `0xC` with the options in bits 1 to 0. -/
theorem encode_cfgWrite (c : BitVec 2) : encode (.cfgWrite c) = 0xC000 ||| c.setWidth 16 := by
  revert c
  decide

/-! The obligations -/

/-- Settles O10: the state `RESET` leaves has no packet, so the four commands that need one find none. -/
theorem resetCommandReachesResetState : Obligations.ResetCommandReachesResetState :=
  ⟨rfl, fun s => ⟨_, exec_reset s, rfl, rfl, rfl, fun hctx hcfg => State.clear_of_clear hctx hcfg _,
    fun _ _ _ hi => exec_notConstructed rfl hi⟩⟩

/-- Settles O37: `SF` and `SL` are bits 0 and 1 of the options written. -/
theorem cfgWriteSetsBothOptions : Obligations.CfgWriteSetsBothOptions := fun c =>
  ⟨encode_cfgWrite c, fun s => ⟨_, exec_cfgWrite c s, rfl, rfl, rfl⟩⟩

/-- Settles O38: what is read are the options of the state, of which `SF` and `SL` are the bits. -/
theorem cfgReadReturnsBothOptions : Obligations.CfgReadReturnsBothOptions :=
  ⟨rfl, fun s => ⟨s.cfg, exec_cfgRead s, rfl, rfl, id⟩⟩

end Sys2Proof.Machine
end

section
/-!
PROOFS. The family 60_exceptions.md: what a command can end with (R140 to R147, R158) and the idle block (R156). The
table of R145 is said once, row by row, in `exec_rowDecides`: in every state either a condition of the command's row holds
and it ends with an error whose cell holds, or none holds and it ends with no error. The rules about errors are read off
it, and off the effects of the commands.
-/

namespace Sys2Proof.Machine

/-! The range check (R55, R144) -/

/-- R55, R144: operands that are not accepted have, in strict mode, a lowest field that does not fit. -/
theorem lowestBadField_of_not_accepted {fm : BitVec 6} {s : State} (h : ¬fieldsAccepted fm s) :
    s.sf = true ∧ ∃ i, lowestBadField fm s.ports.fin i := by
  simp only [fieldsAccepted, not_forall] at h
  obtain ⟨hsf, i, hsup, hbad⟩ := h
  obtain ⟨m, ⟨hmsup, hmbad⟩, hmin⟩ :=
    wellFounded_lt.has_min {i | supplied fm i = true ∧ ¬fits i (s.ports.fin.get i)} ⟨i, hsup, hbad⟩
  exact ⟨hsf, m, hmsup, hmbad, fun j hj hjsup => by_contra fun hjbad => hmin j ⟨hjsup, hjbad⟩ hj⟩

/-! A row of the table of R145 -/

/-- R140: command `i` in state `s` ends with error `e`. -/
def EndsInError (i : Instr) (s : State) (e : Error) : Prop :=
  ∃ t, exec i s = .next t ∧ t.result = some (.error e)

/-- R145: the row of command `i` says, in state `s`, whether it ends in error: with an error whose cell holds, or with
none where no cell holds. -/
inductive RowDecides (i : Instr) (s : State) : Prop where
  | error {e : Error} (h : EndsInError i s e) (hcell : StatusCell i s e.status)
  | noError (h : ∀ e, ¬EndsInError i s e) (hcell : ∀ status, ¬StatusCell i s status)

/-- A command that completes, in a state in which its row has no condition that holds. -/
theorem RowDecides.of_completes {i : Instr} {s t : State} {out : Output} (h : exec i s = .next t)
    (hok : t.result = some (.ok out)) (hcell : ∀ status, ¬StatusCell i s status) : RowDecides i s := by
  refine .noError ?_ hcell
  rintro e ⟨u, hu, herr⟩
  cases h.symm.trans hu
  cases hok.symm.trans herr

/-- R114: a command that passes its checks and writes a payload anew completes or is refused, and ends with no error. -/
theorem RowDecides.of_writesPayload {i : Instr} {s : State} {p : Packet} (h : WritesPayload s i p)
    (hcell : ∀ status, ¬StatusCell i s status) : RowDecides i s := by
  refine .noError ?_ hcell
  rintro e ⟨u, hu, herr⟩
  obtain ⟨_, rfl⟩ := storePacket_next (h.exec_eq.symm.trans hu)
  cases herr

/-- R85, R87: the row of a command that packs `SIN` in mode `m` has the one cell `PayloadLengthMismatch`. -/
theorem rowDecides_pack {i : Instr} (m : Mode)
    (hexec : ∀ s, exec i s = finish ((pack m s.ports.sin s.ports.nin).map Output.bout) s) (s : State)
    (hcell : ∀ status, StatusCell i s status ↔
      status = .payloadLengthMismatch ∧ s.ports.sin.length ≠ components m s.ports.nin) : RowDecides i s := by
  obtain ⟨hright, hwrong⟩ := exec_pack_cases m hexec s
  by_cases hcount : s.ports.sin.length = components m s.ports.nin
  · obtain ⟨_, hex, _⟩ := hright hcount
    exact .of_completes hex rfl fun status h => ((hcell status).mp h).2 hcount
  · exact .error ⟨_, hwrong hcount, rfl⟩ ((hcell _).mpr ⟨rfl, hcount⟩)

/-- R102, R104, R105: the row of a command that only reads the packet has the one cell `NotConstructed`. -/
theorem rowDecides_read {i : Instr} (out : Packet → Output)
    (hexec : ∀ s, exec i s = withPacket s fun p => complete (out p) s) (s : State)
    (hcell : ∀ status, StatusCell i s status ↔ status = .notConstructed ∧ s.con = false) : RowDecides i s := by
  obtain hp | ⟨p, hp⟩ := s.ctx_cases
  · exact .error ⟨_, (hexec s).trans (withPacket_none hp _), rfl⟩
      ((hcell _).mpr ⟨rfl, (State.con_eq_false_iff s).mpr hp⟩)
  · refine .of_completes ((hexec s).trans (withPacket_some hp _)) rfl fun status h => ?_
    cases hp.symm.trans ((State.con_eq_false_iff s).mp ((hcell status).mp h).2)

/-- R76: the row of `HDR_DECODE`. -/
theorem rowDecides_hdrDecode (s : State) : RowDecides .hdrDecode s := by
  obtain hshort | hlen := Nat.lt_or_ge s.ports.bin.length 16
  · exact .error ⟨_, exec_hdrDecode_truncated hshort, rfl⟩ hshort
  · refine .of_completes (exec_hdrDecode_ok hlen) rfl fun status h => ?_
    cases status with
    | truncatedPacket => exact hlen.not_gt h
    | _ => exact h

/-- R100, R144: the row of `FROM_FIELDS`, in the order of its checks. -/
theorem rowDecides_fromFields (w8 : Mode) (fm : BitVec 6) (s : State) : RowDecides (.fromFields w8 fm) s := by
  obtain ⟨_, hrange, hcount⟩ := fromFieldsFailsInOrder w8 fm s
  by_cases hfm : fm = allFields
  case neg => exact .error ⟨_, exec_fromFields_incomplete w8 s hfm, rfl⟩ hfm
  by_cases ha : fieldsAccepted fm s
  case neg =>
    obtain ⟨hsf, i, hi⟩ := lowestBadField_of_not_accepted ha
    exact .error ⟨_, hrange hfm hsf i hi, rfl⟩ ha
  by_cases hlen : s.ports.sin.length = components w8 (32 * (s.ports.fin.nchan % 65536).toNat)
  case neg => exact .error ⟨_, hcount hfm ha _ rfl hlen, rfl⟩ hlen
  have hcell : ∀ status, ¬StatusCell (.fromFields w8 fm) s status := fun status h => by
    cases status with
    | incompleteHeader => exact h hfm
    | fieldOutOfRange => exact h ha
    | payloadLengthMismatch => exact h hlen
    | _ => exact h
  subst hfm
  rw [← FieldValues.masked_expBytes] at hlen
  obtain ⟨pay, hpack, _⟩ := pack_right_count hlen
  have hp := packetOfFields_accepted w8 s.ports.sin ha
  rw [hpack] at hp
  exact .of_writesPayload (.built hp) hcell

/-- R101, R144: the row of `FROM_BYTES`, in the order of its checks. -/
theorem rowDecides_fromBytes (w8 : Mode) (s : State) : RowDecides (.fromBytes w8) s := by
  obtain ⟨hshort, htruncated, hexcess⟩ := fromBytesFailsInOrder w8 s _ rfl
  obtain hlt | hheader := Nat.lt_or_ge s.ports.bin.length 16
  · exact .error ⟨_, hshort hlt, rfl⟩ (.inl hlt)
  obtain hlt | hlen := Nat.lt_or_ge s.ports.bin.length (16 + 32 * wireField s.ports.bin 2)
  · exact .error ⟨_, htruncated hheader hlt, rfl⟩ (.inr hlt)
  by_cases hlong : 16 + 32 * wireField s.ports.bin 2 < s.ports.bin.length ∧ s.sl = true
  · exact .error ⟨_, hexcess hheader hlong.1 hlong.2, rfl⟩ hlong
  have hcell : ∀ status, ¬StatusCell (.fromBytes w8) s status := fun status h => by
    cases status with
    | truncatedPacket => exact h.elim hheader.not_gt hlen.not_gt
    | excessLength => exact hlong h
    | _ => exact h
  have hexact : s.sl = true → s.ports.bin.length = 16 + 32 * wireField s.ports.bin 2 := fun hsl =>
    (Nat.not_lt.mp fun hlt => hlong ⟨hlt, hsl⟩).antisymm hlen
  rw [← decodeHeader_expBytes hheader] at hlen hexact
  exact .of_writesPayload (.parsed (packetOfBytes_ok hheader s.sl w8 hlen hexact)) hcell

/-- R103, R144: the row of `UPDATE`, in the order of its checks. -/
theorem rowDecides_update (smp : Bool) (fm : BitVec 6) (s : State) : RowDecides (.update smp fm) s := by
  obtain ⟨hnone, hsome⟩ := updateFailsInOrder smp fm s
  obtain hp | ⟨p, hp⟩ := s.ctx_cases
  · exact .error ⟨_, hnone hp, rfl⟩ ((State.con_eq_false_iff s).mpr hp)
  obtain ⟨hrange, hcount⟩ := hsome p hp
  by_cases ha : fieldsAccepted fm s
  case neg =>
    obtain ⟨hsf, i, hi⟩ := lowestBadField_of_not_accepted ha
    exact .error ⟨_, hrange hsf i hi, rfl⟩ ha
  by_cases hmismatch : if smp then s.ports.sin.length ≠ components p.mode (32 * newChannels fm s.ports.fin p.hdr)
      else p.pay.length ≠ 32 * newChannels fm s.ports.fin p.hdr
  · exact .error ⟨_, hcount ha _ rfl _ rfl hmismatch, rfl⟩ ⟨p, hp, hmismatch⟩
  have hcell : ∀ status, ¬StatusCell (.update smp fm) s status := fun status h => by
    cases status with
    | payloadLengthMismatch =>
      obtain ⟨q, hq, h⟩ := h
      cases hp.symm.trans hq
      exact hmismatch h
    | fieldOutOfRange => exact h ha
    | notConstructed => cases hp.symm.trans ((State.con_eq_false_iff s).mp h)
    | _ => exact h
  rw [← supplyFields_expBytes] at hmismatch
  cases smp with
  | true =>
    obtain ⟨pay, hpack, _⟩ := pack_right_count (not_not.mp hmismatch)
    have hq := updatedPacket_samples ha s.ports.sin p
    rw [hpack] at hq
    exact .of_writesPayload (.repacked hp hq) hcell
  | false => exact .of_completes (exec_update_fields hp ha (not_not.mp hmismatch)) rfl hcell

/-- R145: the table decides, for every command and in every state, whether the command ends in error. -/
theorem exec_rowDecides (i : Instr) (s : State) : RowDecides i s := by
  cases i with
  | hdrEncode | unpackNibbles | unpackBytes | cfgWrite | cfgRead | reset => exact .of_completes rfl rfl fun _ h => h
  | hdrDecode => exact rowDecides_hdrDecode s
  | packNibbles =>
    exact rowDecides_pack .bits4 (fun _ => rfl) s fun status => by cases status <;> simp [StatusCell, components]
  | packBytes =>
    exact rowDecides_pack .bits8 (fun _ => rfl) s fun status => by cases status <;> simp [StatusCell, components]
  | toBytes | decodedSamples | readFields =>
    exact rowDecides_read _ (fun _ => rfl) s fun status => by cases status <;> simp [StatusCell]
  | fromFields w8 fm => exact rowDecides_fromFields w8 fm s
  | fromBytes w8 => exact rowDecides_fromBytes w8 s
  | update smp fm => exact rowDecides_update smp fm s

/-! The errors of the legacy configuration (R158) -/

/-- R144, R158: with `CFG = 0` the table has no condition that holds but those of the three errors of the source and
that of a command without a packet. -/
theorem StatusCell.of_legacy {i : Instr} {s : State} {status : Status} (hcfg : s.cfg = 0) (h : StatusCell i s status) :
    status ∈ [.incompleteHeader, .payloadLengthMismatch, .truncatedPacket] ∨
      (status = .notConstructed ∧ s.con = false) := by
  have hsf : s.sf = false := by rw [State.sf, hcfg]; rfl
  have hsl : s.sl = false := by rw [State.sl, hcfg]; rfl
  cases status with
  | incompleteHeader | payloadLengthMismatch | truncatedPacket => exact .inl (by simp)
  | fieldOutOfRange =>
    cases i with
    | fromFields _ fm | update _ fm => exact absurd (fieldsAccepted_of_legacy fm hsf) h
    | _ => exact h.elim
  | excessLength =>
    cases i with
    | fromBytes => cases hsl.symm.trans h.2
    | _ => exact h.elim
  | notConstructed =>
    cases i with
    | toBytes | update | decodedSamples | readFields => exact .inr ⟨rfl, h⟩
    | _ => exact h.elim
  | ok | illegalCommand => cases i <;> exact h.elim

/-- A command ends with one result or is refused. -/
theorem exec_result_isSome {i : Instr} {s t : State} (h : exec i s = .next t) : ∃ r, t.result = some r := by
  cases exec_effect h <;> exact ⟨_, rfl⟩

/-! The status codes (R141) -/

/-- R141: the status of a code. -/
def Status.ofCode (code : BitVec 3) : Status :=
  [.ok, .incompleteHeader, .payloadLengthMismatch, .truncatedPacket, .fieldOutOfRange, .excessLength, .notConstructed,
    .illegalCommand].getD code.toNat .ok

theorem Status.ofCode_code : Function.LeftInverse Status.ofCode Status.code := fun status => by cases status <;> rfl

/-- R141: a result is `OK` exactly when it carries no record, for no error has that status. -/
theorem Result.status_eq_ok_iff (r : Result) : r.status = .ok ↔ r.info = none := by
  cases r with
  | ok out => exact ⟨fun _ => rfl, fun _ => rfl⟩
  | error e => exact ⟨fun h => absurd h e.status_ne_ok, nofun⟩

/-! The obligations -/

/-- Settles O39: a next state shows a result by the effect of each command, a refusal is that of a payload written anew,
and there is no fault. -/
theorem everyCommandEndsWithAResult : Obligations.EveryCommandEndsWithAResult := by
  intro i s
  cases h : exec i s with
  | next t =>
    obtain ⟨r, hr⟩ := exec_result_isSome h
    exact .inl ⟨t, r, rfl, hr⟩
  | fault f => nomatch f
  | refused r =>
    obtain ⟨p, _, hbig, rfl⟩ := exec_refused h
    exact .inr ⟨_, rfl, hbig⟩

/-- Settles O40: the row of the command decides, both ways. -/
theorem errorStatusesAreThoseOfTheTable : Obligations.ErrorStatusesAreThoseOfTheTable := by
  refine ⟨fun i s t e h hr => ?cellOfError, fun i s status hstatus => ?errorOfCell⟩
  case cellOfError =>
    obtain ⟨⟨u, hu, hr'⟩, hcell⟩ | ⟨hno, _⟩ := exec_rowDecides i s
    · cases h.symm.trans hu
      cases hr.symm.trans hr'
      exact hcell
    · exact absurd ⟨t, h, hr⟩ (hno e)
  case errorOfCell =>
    obtain ⟨⟨t, ht⟩, _⟩ | ⟨_, hno⟩ := exec_rowDecides i s
    · exact ⟨t, _, ht⟩
    · exact absurd hstatus (hno status)

/-- Settles O41: the cells of the table that can hold with `CFG = 0`; and after reset each of the three errors, by a
construction without fields, a count that no sample meets, and an empty buffer. -/
theorem legacyErrorsAreTheThreeOfTheSource : Obligations.LegacyErrorsAreTheThreeOfTheSource := by
  obtain ⟨hcell, _⟩ := errorStatusesAreThoseOfTheTable
  refine ⟨fun i s t e hcfg h hr => (hcell i s t e h hr).of_legacy hcfg, ?occurs⟩
  case occurs =>
    simp only [List.forall_mem_cons]
    exact ⟨⟨.fromFields .bits4 0, State.reset, _, _, rfl, rfl, rfl, rfl⟩,
      ⟨.packBytes, State.reset.setPorts { Ports.idle with nin := 1 }, _, _, rfl, rfl, rfl, rfl⟩,
      ⟨.hdrDecode, State.reset, _, _, rfl, rfl, rfl, rfl⟩, nofun⟩

/-- Settles O43: of the effects of a command only two show an error, and they are the two of R146 and R147. -/
theorem errorsWriteNoState : Obligations.ErrorsWriteNoState := by
  intro i s t e h hr
  cases exec_effect h with
  | kept hconstructs => cases hr; rw [hconstructs]; rfl
  | constructionFailed hconstructs => cases hr; rw [hconstructs]; rfl
  | built | parsed | updated | configured | cleared => cases hr

/-- Settles O8: of the cases of a step an empty stream leaves only the idle one. -/
theorem idleStepKeepsState : Obligations.IdleStepKeepsState := by
  intro s hs
  obtain ⟨_, hidle⟩ | ⟨r, rest, hcons, _⟩ := step_cases s
  · exact hidle
  · cases hs.symm.trans hcons

/-- Settles O42: each code gives its status back, and a result is `OK` or an error. -/
theorem statusCodesAreThoseOfTheTable : Obligations.StatusCodesAreThoseOfTheTable :=
  ⟨rfl, fun _ _ h => Status.ofCode_code.injective h, Result.status_eq_ok_iff⟩

end Sys2Proof.Machine
end
